-- ==== Sys2Proof/Word.lean ====
section
/-! DEFINITION. The widths of the LS-8 core: 8-bit data, 9-bit port addresses, eight registers (R7 of spec/00_scope.md). -/

namespace Sys2Proof

/-- A register, a memory cell, an opcode or an operand: an unsigned 8-bit value (R7, R9). -/
abbrev Byte := BitVec 8

/-- A value of the program counter and an address on the memory port: 9 bits, so that 256 can be named (R27, R50). -/
abbrev Addr := BitVec 9

/-- A register index. The register file has indices 0 to 7 (R21), and this type holds no other. -/
abbrev Reg := Fin 8

/-- A byte as an address or a pc value: zero extension, the only extension the core makes (R10, R77). -/
def zext (b : Byte) : Addr := b.setWidth 9

end Sys2Proof
end

