-- ==== Sys2Proof/Config.lean ====
section
/-! DEFINITION. What is fixed for one core: the operations it has, their formats, the constants of R7 and the two
parameters of R8. The default VALUES of the two parameters stand in Decode.lean. -/

namespace Sys2Proof

/-- The 18 operations of the opcode map, in the order of its rows (30_encoding.md R80). -/
inductive Op where
  | ldi | prn | add | sub | mul | div | and | or | xor | cmp | push | pop | call | ret | jmp | jeq | jne | hlt
  deriving DecidableEq, Repr

/-- Every operation once, in the order of R80's rows. -/
def Op.all : List Op :=
  [.ldi, .prn, .add, .sub, .mul, .div, .and, .or, .xor, .cmp, .push, .pop, .call, .ret, .jmp, .jeq, .jne, .hlt]

/-- The four instruction formats (30_encoding.md R75). -/
inductive Format where
  /-- opcode only -/
  | f0
  /-- opcode, register -/
  | f1r
  /-- opcode, register, register -/
  | f2rr
  /-- opcode, register, 8-bit immediate -/
  | f2ri
  deriving DecidableEq, Repr

/-- The operand bytes a format has (R75). -/
def Format.operandCount : Format → Nat
  | .f0 => 0
  | .f1r => 1
  | .f2rr => 2
  | .f2ri => 2

/-- The operand positions, counted from 1, that hold a register index, in operand order (R75, R92). -/
def Format.registerPositions : Format → List Nat
  | .f0 => []
  | .f1r => [1]
  | .f2rr => [1, 2]
  | .f2ri => [1]

/-- The format of each operation (R75, R80). -/
def Op.format : Op → Format
  | .ldi => .f2ri
  | .add | .sub | .mul | .div | .and | .or | .xor | .cmp => .f2rr
  | .prn | .push | .pop | .call | .jmp | .jeq | .jne => .f1r
  | .ret | .hlt => .f0

/-- The operations that may write pc themselves (30_encoding.md R73). -/
def Op.controlsPc : Op → Bool
  | .call | .ret | .jmp | .jeq | .jne => true
  | .ldi | .prn | .add | .sub | .mul | .div | .and | .or | .xor | .cmp | .push | .pop | .hlt => false

/-- The parameter OPCODE_MAP: the byte that selects each operation (00_scope.md R8). -/
abbrev OpcodeMap := Op → Byte

/-- The two parameters a core is built with (00_scope.md R8). No instruction and no host action changes them (R90). -/
structure Params where
  /-- OPCODE_MAP -/
  opcodeMap : OpcodeMap
  /-- EAGER_OPERAND_FETCH: read both bytes after the opcode before decode, for every instruction (R91) -/
  eagerOperandFetch : Bool

/-- SP_INDEX: register 7 is the stack pointer (R7, R22). -/
def Config.spIndex : Reg := 7

/-- SP_RESET: the stack pointer's reset value (R7). -/
def Config.spReset : Byte := 0xF4

/-- MEMSIZE: the number of memory cells (R7). -/
def Config.memSize : Nat := 256

end Sys2Proof
end

