-- ==== Sys2Proof/Machine/State.lean ====
section
/-! DEFINITION. The architectural state (10_state.md R20), its reset value (R39, R230), and the ways a step can stop. -/

namespace Sys2Proof.Machine

/-- The run state (R33). The source's Running flag is true exactly in `running`. -/
inductive RunState where
  | ready
  | running
  | halted
  deriving DecidableEq, Repr

/-- halt_rec.CAUSE (R34). Codes 6 and 7 are never written, so no constructor stands for them (log 10). -/
inductive Cause where
  /-- 0: not halted -/
  | none
  /-- 1: the normal end -/
  | hlt
  /-- 2 -/
  | unknownOpcode
  /-- 3 -/
  | outOfBounds
  /-- 4 -/
  | divisionByZero
  /-- 5 -/
  | invalidRegister
  deriving DecidableEq, Repr

/-- The halt record (R34). No instruction reads or writes it; the core writes it once, on entering Halted. -/
structure HaltRec where
  cause : Cause
  /-- FPC: pc of the instruction that halted or faulted -/
  fpc : Addr
  /-- FOPC: the opcode byte at FPC when it was fetched, else 0 -/
  fopc : Byte
  /-- FOPC_V -/
  fopcV : Bool
  /-- FADDR: the address the fault names, else 0 -/
  faddr : Addr
  /-- FADDR_V -/
  faddrV : Bool
  deriving DecidableEq, Repr

/-- The halt record at reset: all fields 0 (R34, R39). -/
def HaltRec.zero : HaltRec := ⟨.none, 0, 0, false, 0, false⟩

/-- Memory: the cells that do not hold 0, by strictly rising address, all below 256 (R36; log 7). An unlisted cell holds
0, the value R39 gives every cell at reset. -/
abbrev Memory := List Host.Cell

/-- The architectural state, R20's tuple and nothing else. -/
structure State where
  /-- x[0..7]; x[7] is the stack pointer (R21, R22) -/
  regs : Vector Byte 8
  /-- the program counter, 0 to 256 (R27) -/
  pc : Addr
  /-- the flags register: bit 0 E, bit 1 G, bit 2 L, bits 7:3 always 0 (R29) -/
  fl : Byte
  /-- MEM[0..255] (R36) -/
  mem : Memory
  /-- the run state (R33) -/
  run : RunState
  /-- the halt record (R34) -/
  haltRec : HaltRec
  /-- the output channel, oldest byte first (R32) -/
  out : List Byte
  deriving DecidableEq, Repr

/-- The machine right after reset (R39, R230). The spec gives every one of these values. -/
def State.reset : State where
  regs := (Vector.replicate 8 0).set Config.spIndex Config.spReset
  pc := 0
  fl := 0
  mem := []
  run := .ready
  haltRec := HaltRec.zero
  out := []

/-- The ways a step can stop outside the architecture. There is none: every fatal condition of the spec has a described
entry (R207), so it is a next state, run = Halted (log 3), and nothing raises a fault. Safe. -/
inductive Fault where
  deriving DecidableEq, Repr

/-- The steps the model gives no meaning. -/
inductive Refusal where
  /-- Raised by an arm of exec for an instruction that has no meaning yet. Safe. No arm raises it now. -/
  | notModelled (mnemonic : String)
  /-- Raised by the parametric core (`stepWith`) alone, for an OPCODE_MAP that breaks R72, a value R8 does not allow.
  Safe: `step`, which has the default map, never raises it (log 5). -/
  | opcodeMapInvalid
  deriving DecidableEq, Repr

/-- The outcome of a step of this machine. -/
abbrev Outcome := Host.Outcome State Fault Refusal

end Sys2Proof.Machine
end

