-- ==== Sys2Proof/Machine/Flags.lean ====
section
/-! DEFINITION. The flags register: what CMP writes and what JEQ and JNE read (10_state.md R29 to R31, 41_alu.md R127, R131). -/

namespace Sys2Proof.Machine

/-- The result of a comparison (R131). -/
inductive FlagState where
  | equal
  | greater
  | less
  deriving DecidableEq, Repr

/-- compare(a, b), unsigned, equality checked first (R131). -/
def compareBytes (a b : Byte) : FlagState :=
  if a = b then .equal else if a.toNat > b.toNat then .greater else .less

/-- The flags byte of a result: E is bit 0, G bit 1, L bit 2 (R29, R127). -/
def FlagState.toByte : FlagState → Byte
  | .equal => 0b00000001
  | .greater => 0b00000010
  | .less => 0b00000100

/-- fl.E (R29). -/
def State.flagE (s : State) : Bool := s.fl.getLsbD 0

/-- fl.G (R29). -/
def State.flagG (s : State) : Bool := s.fl.getLsbD 1

/-- fl.L (R29). -/
def State.flagL (s : State) : Bool := s.fl.getLsbD 2

/-- fl <- the comparison's result, every earlier bit discarded (R127). -/
def State.setFlags (s : State) (f : FlagState) : State := { s with fl := f.toByte }

end Sys2Proof.Machine
end

