-- ==== Sys2Proof/Syntax.lean ====
section
/-! DEFINITION. The instructions, one constructor for each row of spec/opcode_table.json. A register operand is a `Reg`,
so an instruction that names a register above 7 cannot be built: such bytes are refused at decode (R76, R92). -/

namespace Sys2Proof

/-- An LS-8 instruction with its operands, A first (R75, R80). -/
inductive Instr where
  | ldi (a : Reg) (imm : Byte)
  | prn (a : Reg)
  | add (a b : Reg)
  | sub (a b : Reg)
  | mul (a b : Reg)
  | div (a b : Reg)
  | and (a b : Reg)
  | or (a b : Reg)
  | xor (a b : Reg)
  | cmp (a b : Reg)
  | push (a : Reg)
  | pop (a : Reg)
  | call (a : Reg)
  | ret
  | jmp (a : Reg)
  | jeq (a : Reg)
  | jne (a : Reg)
  | hlt
  deriving DecidableEq, Repr

/-- The operation an instruction performs. -/
def Instr.op : Instr → Op
  | .ldi _ _ => .ldi
  | .prn _ => .prn
  | .add _ _ => .add
  | .sub _ _ => .sub
  | .mul _ _ => .mul
  | .div _ _ => .div
  | .and _ _ => .and
  | .or _ _ => .or
  | .xor _ _ => .xor
  | .cmp _ _ => .cmp
  | .push _ => .push
  | .pop _ => .pop
  | .call _ => .call
  | .ret => .ret
  | .jmp _ => .jmp
  | .jeq _ => .jeq
  | .jne _ => .jne
  | .hlt => .hlt

end Sys2Proof
end

