-- ==== Sys2Proof/WellFormed.lean ====
section
/-! DEFINITION. The checks: of an instruction still in raw operand bytes (R75, R92) and of a value given for the parameter
OPCODE_MAP (R8, R72, R73, R81). -/

namespace Sys2Proof

/-- An instruction as it is read from memory: the operation its opcode byte selects, and its operand bytes, A first. -/
structure Raw where
  op : Op
  operands : List Byte
  deriving DecidableEq, Repr

/-- It has the operand bytes its format names, no fewer and no more (R75). -/
def Raw.countOk (r : Raw) : Bool := r.operands.length == r.op.format.operandCount

/-- The operand byte at position i, counted from 1, names a register: it is at most 7 (R76). -/
def Raw.registerOkAt (r : Raw) (i : Nat) : Bool :=
  match r.operands[i - 1]? with
  | some b => decide (b.toNat ≤ 7)
  | none => true

/-- Every operand byte in a register position is at most 7. The immediate of LDI is not checked (R92). -/
def Raw.registersOk (r : Raw) : Bool := r.op.format.registerPositions.all r.registerOkAt

/-- A raw instruction that decode accepts: `Raw.toInstr?` answers exactly on these (Laws/Decode.lean). -/
def Raw.wellFormed (r : Raw) : Bool := r.countOk && r.registersOk

/-- Bits 7:6 of each opcode byte are its operand count (R72, R81). -/
def OpcodeMap.countsAgree (m : OpcodeMap) : Bool :=
  Op.all.all fun o => (m o).toNat / 64 == o.format.operandCount

/-- Bit 4 of each opcode byte is set exactly for the operations that control pc (R73, R81). -/
def OpcodeMap.controlAgrees (m : OpcodeMap) : Bool :=
  Op.all.all fun o => (m o).getLsbD 4 == o.controlsPc

/-- No byte selects two operations: the map is a mapping from bytes in use to instructions (R80, R90). -/
def OpcodeMap.distinct (m : OpcodeMap) : Bool := decide (Op.all.map m).Nodup

/-- What R8 asks of any value given for OPCODE_MAP. -/
def OpcodeMap.wellFormed (m : OpcodeMap) : Bool := m.countsAgree && m.controlAgrees && m.distinct

end Sys2Proof
end

