-- ==== Sys2Proof/Decode.lean ====
section
/-! DEFINITION. The opcode map's default, the fields of the opcode byte, the decoder (total on any bytes, rejecting by name)
and the encoder (30_encoding.md R70 to R83). -/

namespace Sys2Proof

/-- The default OPCODE_MAP (R80). LDI, PRN and HLT are the source's; the other fifteen bytes are the standard LS-8 values the
spec adopts. PRESUMED, unsafe: log 4. -/
def defaultOpcodeMap : OpcodeMap
  | .ldi => 0x82
  | .prn => 0x47
  | .add => 0xA0
  | .sub => 0xA1
  | .mul => 0xA2
  | .div => 0xA3
  | .and => 0xA8
  | .or => 0xAA
  | .xor => 0xAB
  | .cmp => 0xA7
  | .push => 0x45
  | .pop => 0x46
  | .call => 0x50
  | .ret => 0x11
  | .jmp => 0x54
  | .jeq => 0x55
  | .jne => 0x56
  | .hlt => 0x01

/-- The parameters this row's core takes: every default of R8 (log 4). -/
def defaultParams : Params := ⟨defaultOpcodeMap, false⟩

/-- operand_count, bits 7:6 of the opcode byte (R71, R72). -/
def operandCount (op : Byte) : Nat := op.toNat / 64

/-- controls_pc, bit 4 of the opcode byte (R71, R73; 90_conflicts.md C1). -/
def controlsPc (op : Byte) : Bool := op.getLsbD 4

/-- The length of an instruction from its opcode byte alone (R74). -/
def instrLength (op : Byte) : Nat := operandCount op + 1

/-- The operation a whole opcode byte selects, none for an unknown opcode (R71, R83, R89). -/
def OpcodeMap.lookup (m : OpcodeMap) (b : Byte) : Option Op := Op.all.find? fun o => m o == b

/-- The first operand byte in a register position that is above 7, with its position (R92: in operand order). -/
def firstBadRegister (f : Format) (operands : List Byte) : Option (Nat × Byte) :=
  f.registerPositions.findSome? fun i =>
    match operands[i - 1]? with
    | some b => if b.toNat > 7 then some (i, b) else none
    | none => none

/-- A register operand: the whole byte is the index, and a byte above 7 is none (R76). -/
def reg? (b : Byte) : Option Reg := if h : b.toNat < 8 then some ⟨b.toNat, h⟩ else none

/-- One register operand. -/
def form1? (f : Reg → Instr) : List Byte → Option Instr
  | [a] => (reg? a).map f
  | _ => none

/-- Two register operands. -/
def form2? (f : Reg → Reg → Instr) : List Byte → Option Instr
  | [a, b] => (reg? a).bind fun ra => (reg? b).map fun rb => f ra rb
  | _ => none

/-- A register and an immediate, register first (R75, R77). -/
def formImm? (f : Reg → Byte → Instr) : List Byte → Option Instr
  | [a, imm] => (reg? a).map fun ra => f ra imm
  | _ => none

/-- No operand. -/
def form0? (i : Instr) : List Byte → Option Instr
  | [] => some i
  | _ => none

/-- The instruction of raw bytes, none where the operand count or a register index is wrong (R75, R76). -/
def Raw.toInstr? (r : Raw) : Option Instr :=
  match r.op with
  | .ldi => formImm? .ldi r.operands
  | .prn => form1? .prn r.operands
  | .add => form2? .add r.operands
  | .sub => form2? .sub r.operands
  | .mul => form2? .mul r.operands
  | .div => form2? .div r.operands
  | .and => form2? .and r.operands
  | .or => form2? .or r.operands
  | .xor => form2? .xor r.operands
  | .cmp => form2? .cmp r.operands
  | .push => form1? .push r.operands
  | .pop => form1? .pop r.operands
  | .call => form1? .call r.operands
  | .ret => form0? .ret r.operands
  | .jmp => form1? .jmp r.operands
  | .jeq => form1? .jeq r.operands
  | .jne => form1? .jne r.operands
  | .hlt => form0? .hlt r.operands

/-- Why bytes do not decode. -/
inductive DecodeError where
  /-- there is no byte at all -/
  | noOpcode
  /-- the first byte is not in the opcode map (R83) -/
  | unknownOpcode (op : Byte)
  /-- fewer bytes follow than operand_count -/
  | missingOperand (op : Byte)
  /-- the operand byte at this position, counted from 1, is no register index (R92) -/
  | invalidRegister (position : Nat) (index : Byte)
  /-- the map breaks R72: the byte's operand count is not its operation's. Never with the default map (log 5). -/
  | opcodeMapInvalid
  deriving DecidableEq, Repr

/-- Decode under any opcode map: the instruction at the head of the bytes, with the bytes after it. The length comes from
the opcode byte alone (R74), and the checks run in the order of R87. -/
def decodeWith (m : OpcodeMap) : List Byte → Except DecodeError (Instr × List Byte)
  | [] => .error .noOpcode
  | op :: rest =>
    match m.lookup op with
    | none => .error (.unknownOpcode op)
    | some o =>
      if rest.length < operandCount op then .error (.missingOperand op)
      else
        match firstBadRegister o.format (rest.take (operandCount op)) with
        | some (i, b) => .error (.invalidRegister i b)
        | none =>
          match (Raw.mk o (rest.take (operandCount op))).toInstr? with
          | none => .error .opcodeMapInvalid
          | some i => .ok (i, rest.drop (operandCount op))

/-- Decode under the default opcode map. -/
def decode (bytes : List Byte) : Except DecodeError (Instr × List Byte) := decodeWith defaultOpcodeMap bytes

/-- A register index as an operand byte (R76). -/
def regByte (r : Reg) : Byte := BitVec.ofNat 8 r.val

/-- The operand bytes of an instruction, A first (R75). -/
def Instr.operandBytes : Instr → List Byte
  | .ldi a imm => [regByte a, imm]
  | .prn a | .push a | .pop a | .call a | .jmp a | .jeq a | .jne a => [regByte a]
  | .add a b | .sub a b | .mul a b | .div a b | .and a b | .or a b | .xor a b | .cmp a b => [regByte a, regByte b]
  | .ret | .hlt => []

/-- An instruction as raw bytes, the form WellFormed.lean checks. -/
def Instr.raw (i : Instr) : Raw := ⟨i.op, i.operandBytes⟩

/-- Encode under any opcode map: the opcode byte at the lowest address, then A, then B (R54, R70, R75). -/
def encodeWith (m : OpcodeMap) (i : Instr) : List Byte := m i.op :: i.operandBytes

/-- Encode under the default opcode map. -/
def encode (i : Instr) : List Byte := encodeWith defaultOpcodeMap i

/-- The three bytes of a table word, lowest address first: bit 0 of w is bit 0 of the opcode byte, every bit from nbits on
is 0, and three bytes is the longest instruction (R70). -/
def tableBytes (nbits w : Nat) : List Byte :=
  [BitVec.ofNat 8 (w % 2 ^ nbits), BitVec.ofNat 8 (w % 2 ^ nbits / 256), BitVec.ofNat 8 (w % 2 ^ nbits / 65536)]

/-- The host's view of the decoder, on an instruction whose bits are w as spec/opcode_table.json numbers them. -/
def decodeTableWord (nbits w : Nat) : Option Instr :=
  match decode (tableBytes nbits w) with
  | .ok (i, _) => some i
  | .error _ => none

end Sys2Proof
end

