-- ==== Sys2Proof/Machine/Ops.lean ====
section
/-! DEFINITION. The operations the meanings share: memory and its port (20_memory.md R50 to R53), the fatal conditions and
their one entry (60_exceptions.md R200 to R208), and the end of a step (30_encoding.md R93, R94). -/

namespace Sys2Proof.Machine

/-! ### Memory -/

/-- The value of the cell at an address: the listed byte, 0 where none is listed (R39). -/
def Memory.read (m : Memory) (a : Nat) : Byte :=
  match m.find? fun c => c.1 == a with
  | some c => c.2
  | none => 0

/-- The cells of every address but one. -/
def Memory.erase (m : Memory) (a : Nat) : Memory := m.filter fun c => c.1 != a

/-- Put a cell before the first cell of a higher address. -/
def Memory.insert (a : Nat) (v : Byte) : Memory → Memory
  | [] => [(a, v)]
  | c :: m => if c.1 < a then c :: Memory.insert a v m else (a, v) :: c :: m

/-- Store a byte. A stored 0 unlists the address, so equal memories are equal lists. -/
def Memory.write (m : Memory) (a : Nat) (v : Byte) : Memory :=
  if v = 0 then m.erase a else Memory.insert a v (m.erase a)

/-- The canonical form: addresses strictly rising and below 256, and no cell that holds 0. -/
def Memory.wf (m : Memory) : Bool :=
  decide (m.Pairwise fun c d => c.1 < d.1) && m.all fun c => decide (c.1 < Config.memSize) && c.2 != 0

/-! ### Fatal conditions -/

/-- The fatal conditions the core raises, with the arguments R200 to R204 give them. -/
inductive Fatal where
  | unknownOpcode (addr : Addr) (opcode : Byte)
  | outOfBoundsAccess (addr : Addr)
  | divisionByZero
  | invalidRegister (addr : Addr) (index : Byte)
  deriving DecidableEq, Repr

/-- The CAUSE code's name of a fatal condition (R200). -/
def Fatal.cause : Fatal → Cause
  | .unknownOpcode _ _ => .unknownOpcode
  | .outOfBoundsAccess _ => .outOfBounds
  | .divisionByZero => .divisionByZero
  | .invalidRegister _ _ => .invalidRegister

/-- The address a fatal condition names: FADDR where there is one (R208). -/
def Fatal.addr? : Fatal → Option Addr
  | .unknownOpcode a _ => some a
  | .outOfBoundsAccess a => some a
  | .divisionByZero => none
  | .invalidRegister a _ => some a

/-- run <- Halted, with the halt record that is written then (R34). -/
def State.haltWith (s : State) (r : HaltRec) : State := { s with run := .halted, haltRec := r }

/-- TAKING A FATAL CONDITION: run becomes Halted, the halt record is written, and pc, registers, flags, memory and output
stay (R207, R208). `op` is the opcode byte, where it was fetched. There is no return from it (R210). -/
def State.raise (s : State) (f : Fatal) (op : Option Byte) : State :=
  s.haltWith
    { cause := f.cause, fpc := s.pc, fopc := op.getD 0, fopcV := op.isSome,
      faddr := f.addr?.getD 0, faddrV := f.addr?.isSome }

/-! ### The memory port -/

/-- MemRead(addr, 1): OutOfBoundsAccess(addr) above 255 (R52). -/
def Memory.portRead (m : Memory) (addr : Addr) : Except Fatal Byte :=
  if addr.toNat > 255 then .error (.outOfBoundsAccess addr) else .ok (m.read addr.toNat)

/-- MemWrite(addr, 1, v): OutOfBoundsAccess(addr) above 255, and then no cell changes (R52). -/
def Memory.portWrite (m : Memory) (addr : Addr) (v : Byte) : Except Fatal Memory :=
  if addr.toNat > 255 then .error (.outOfBoundsAccess addr) else .ok (m.write addr.toNat v)

/-- The state with another memory. -/
def State.setMem (s : State) (m : Memory) : State := { s with mem := m }

/-- n bytes from an address upward, each read through the port in address order; the first failing read ends it (R91). -/
def Memory.portReadMany (m : Memory) (addr : Addr) : Nat → Except Fatal (List Byte)
  | 0 => .ok []
  | n + 1 =>
    match m.portRead addr with
    | .error f => .error f
    | .ok b =>
      match m.portReadMany (addr + 1) n with
      | .error f => .error f
      | .ok bs => .ok (b :: bs)

/-- The bytes from an address up to the top of memory, at most n of them: what a fetch there can read. -/
def Memory.window (m : Memory) (addr : Nat) : Nat → List Byte
  | 0 => []
  | n + 1 => if addr < Config.memSize then m.read addr :: m.window (addr + 1) n else []

/-- The bytes a fetch at pc can read: three is the longest instruction (R70). -/
def State.fetchBytes (s : State) : List Byte := s.mem.window s.pc.toNat 3

/-- Store bytes at an address upward, those beyond the top of memory dropped. -/
def Memory.writeMany (m : Memory) (addr : Nat) : List Byte → Memory
  | [] => m
  | b :: bs => if addr < Config.memSize then (m.write addr b).writeMany (addr + 1) bs else m

/-! ### The end of a step -/

/-- The two results of an execute phase (R94). -/
inductive Flow where
  | advance
  | jumped
  deriving DecidableEq, Repr

/-- What an instruction's own rule answers: done with a state, or a fatal condition raised before any write (R10, R11). -/
inductive Phase where
  | done (flow : Flow) (s : State)
  | raised (f : Fatal)
  deriving DecidableEq, Repr

/-- pc <- target. -/
def State.setPc (s : State) (target : Addr) : State := { s with pc := target }

/-- THE SEQUENCER. It ends a step whose instruction has the opcode byte `op` and began in s: pc moves past the instruction
unless a controls_pc instruction jumped, the length taken from the opcode byte (R74, R87, R93); a raised condition is
taken in s (R207). -/
def finish (op : Byte) (s : State) : Phase → Outcome
  | .done flow t =>
    .next (if controlsPc op = false ∨ flow = .advance then t.setPc (s.pc + BitVec.ofNat 9 (instrLength op)) else t)
  | .raised f => .next (s.raise f (some op))

end Sys2Proof.Machine
end

