-- ==== Sys2Proof/Machine/Operands.lean ====
section
/-! DEFINITION. Reading and writing what an operand names: a register, and the byte the stack pointer points at
(10_state.md R21 to R25, 20_memory.md R58, 42_stack.md R152). An immediate is the operand byte itself (R77). -/

namespace Sys2Proof.Machine

/-- x[r] (R10). -/
def State.reg (s : State) (r : Reg) : Byte := s.regs[r]

/-- x[r] <- v, modulo 256 by the width (R24). No register is hard-wired (R21). -/
def State.setReg (s : State) (r : Reg) (v : Byte) : State := { s with regs := s.regs.set r v }

/-- SP, which is x[7] (R22). -/
def State.sp (s : State) : Byte := s.reg Config.spIndex

/-- SP := SP - 1, modulo 256 (R152; log 11). -/
def State.decSp (s : State) : State := s.setReg Config.spIndex (s.sp - 1)

/-- SP := SP + 1, modulo 256 (R152; log 11). -/
def State.incSp (s : State) : State := s.setReg Config.spIndex (s.sp + 1)

/-- MemWrite(x[7], 1, v) (R150, R160). -/
def State.storeAtSp (s : State) (v : Byte) : Except Fatal State :=
  match s.mem.portWrite (zext s.sp) v with
  | .error f => .error f
  | .ok m => .ok (s.setMem m)

/-- MemRead(x[7], 1) (R151, R161). -/
def State.loadAtSp (s : State) : Except Fatal Byte := s.mem.portRead (zext s.sp)

/-- emit(v): append to the output channel (R10, R32). -/
def State.emit (s : State) (v : Byte) : State := { s with out := s.out ++ [v] }

end Sys2Proof.Machine
end

