-- ==== Sys2Proof/Machine/Alu.lean ====
section
/-! DEFINITION. The ALU instructions (41_alu.md R120 to R131). -/

namespace Sys2Proof.Machine

/-! ### The ALU: pure functions of two register values (R128). The exact result is computed in Nat or Int, then kept modulo
256 (R130). -/

/-- R120. -/
def aluAdd (a b : Byte) : Byte := BitVec.ofNat 8 (a.toNat + b.toNat)

/-- R121: the non-negative remainder of the exact difference. -/
def aluSub (a b : Byte) : Byte := BitVec.ofInt 8 ((a.toNat : Int) - (b.toNat : Int))

/-- R122: the low 8 bits of the product. -/
def aluMul (a b : Byte) : Byte := BitVec.ofNat 8 (a.toNat * b.toNat)

/-- R123: the unsigned quotient. DIV calls it only with a divisor that is not 0 (log 13). -/
def aluDiv (a b : Byte) : Byte := BitVec.ofNat 8 (a.toNat / b.toNat)

/-- R124. -/
def aluAnd (a b : Byte) : Byte := a &&& b

/-- R125. -/
def aluOr (a b : Byte) : Byte := a ||| b

/-- R126. -/
def aluXor (a b : Byte) : Byte := a ^^^ b

/-- x[A] <- f(x[A], x[B]), both sources read before the write; fl is not touched (R129). -/
def aluPhase (f : Byte → Byte → Byte) (a b : Reg) (s : State) : Phase :=
  .done .advance (s.setReg a (f (s.reg a) (s.reg b)))

/-- R123: DivisionByZero when x[B] = 0, before any write. -/
def divPhase (a b : Reg) (s : State) : Phase :=
  if s.reg b = 0 then .raised .divisionByZero else aluPhase aluDiv a b s

/-- R127: fl <- compare(x[A], x[B]). -/
def cmpPhase (a b : Reg) (s : State) : Phase := .done .advance (s.setFlags (compareBytes (s.reg a) (s.reg b)))

/-- ADD (R120). -/
def execAdd (a b : Reg) (s : State) : Outcome := finish (defaultOpcodeMap .add) s (aluPhase aluAdd a b s)

/-- SUB (R121). -/
def execSub (a b : Reg) (s : State) : Outcome := finish (defaultOpcodeMap .sub) s (aluPhase aluSub a b s)

/-- MUL (R122). -/
def execMul (a b : Reg) (s : State) : Outcome := finish (defaultOpcodeMap .mul) s (aluPhase aluMul a b s)

/-- DIV (R123). -/
def execDiv (a b : Reg) (s : State) : Outcome := finish (defaultOpcodeMap .div) s (divPhase a b s)

/-- AND (R124). -/
def execAnd (a b : Reg) (s : State) : Outcome := finish (defaultOpcodeMap .and) s (aluPhase aluAnd a b s)

/-- OR (R125). -/
def execOr (a b : Reg) (s : State) : Outcome := finish (defaultOpcodeMap .or) s (aluPhase aluOr a b s)

/-- XOR (R126). -/
def execXor (a b : Reg) (s : State) : Outcome := finish (defaultOpcodeMap .xor) s (aluPhase aluXor a b s)

/-- CMP (R127). -/
def execCmp (a b : Reg) (s : State) : Outcome := finish (defaultOpcodeMap .cmp) s (cmpPhase a b s)

end Sys2Proof.Machine
end

