-- ==== Sys2Proof/Machine/ControlFlow.lean ====
section
/-! DEFINITION. CALL, RET, JMP, JEQ and JNE (43_control_flow.md R160 to R166). -/

namespace Sys2Proof.Machine

/-- CALL's return address, the byte after the CALL (R160): a natural number, so that 256 and above can be told. -/
def returnAddress (s : State) : Nat := s.pc.toNat + 2

/-- pc <- x[A], Jumped. -/
def jumpTo (a : Reg) (s : State) : Phase := .done .jumped (s.setPc (zext (s.reg a)))

/-- R160: a return address above 255 is OutOfBoundsAccess of it, before any write (log 14). Else SP is decremented, the
return address stored, and x[A] read after the decrement becomes pc. -/
def callPhase (a : Reg) (s : State) : Phase :=
  if returnAddress s > 255 then .raised (.outOfBoundsAccess (BitVec.ofNat 9 (returnAddress s)))
  else
    match s.decSp.storeAtSp (BitVec.ofNat 8 (returnAddress s)) with
    | .error f => .raised f
    | .ok t => jumpTo a t

/-- R161: pc <- MEM[SP], then SP is incremented. -/
def retPhase (s : State) : Phase :=
  match s.loadAtSp with
  | .error f => .raised f
  | .ok v => .done .jumped (s.setPc (zext v)).incSp

/-- R162. -/
def jmpPhase (a : Reg) (s : State) : Phase := jumpTo a s

/-- R163: taken when fl.E = 1. -/
def jeqPhase (a : Reg) (s : State) : Phase := if s.flagE then jumpTo a s else .done .advance s

/-- R164: taken when fl.E = 0. -/
def jnePhase (a : Reg) (s : State) : Phase := if s.flagE then .done .advance s else jumpTo a s

/-- CALL (R160). -/
def execCall (a : Reg) (s : State) : Outcome := finish (defaultOpcodeMap .call) s (callPhase a s)

/-- RET (R161). -/
def execRet (s : State) : Outcome := finish (defaultOpcodeMap .ret) s (retPhase s)

/-- JMP (R162). -/
def execJmp (a : Reg) (s : State) : Outcome := finish (defaultOpcodeMap .jmp) s (jmpPhase a s)

/-- JEQ (R163). -/
def execJeq (a : Reg) (s : State) : Outcome := finish (defaultOpcodeMap .jeq) s (jeqPhase a s)

/-- JNE (R164). -/
def execJne (a : Reg) (s : State) : Outcome := finish (defaultOpcodeMap .jne) s (jnePhase a s)

end Sys2Proof.Machine
end

