-- ==== Sys2Proof/Machine/Halt.lean ====
section
/-! DEFINITION. HLT (44_halt.md R180, R181). -/

namespace Sys2Proof.Machine

/-- R180: run <- Halted and the halt record with CAUSE 1 and HLT's own opcode byte. The result is Advance, so pc moves past
the HLT (R95). -/
def hltPhase (op : Byte) (s : State) : Phase :=
  .done .advance
    (s.haltWith { cause := .hlt, fpc := s.pc, fopc := op, fopcV := true, faddr := 0, faddrV := false })

/-- HLT (R180). -/
def execHlt (s : State) : Outcome := finish (defaultOpcodeMap .hlt) s (hltPhase (defaultOpcodeMap .hlt) s)

end Sys2Proof.Machine
end

