-- ==== Sys2Proof/Machine/LoadOutput.lean ====
section
/-! DEFINITION. LDI and PRN (40_load_output.md R100 to R102). -/

namespace Sys2Proof.Machine

/-- R100: x[A] <- B. -/
def ldiPhase (a : Reg) (imm : Byte) (s : State) : Phase := .done .advance (s.setReg a imm)

/-- R101: emit(x[A]). It never waits (R102). -/
def prnPhase (a : Reg) (s : State) : Phase := .done .advance (s.emit (s.reg a))

/-- LDI (R100). -/
def execLdi (a : Reg) (imm : Byte) (s : State) : Outcome := finish (defaultOpcodeMap .ldi) s (ldiPhase a imm s)

/-- PRN (R101). -/
def execPrn (a : Reg) (s : State) : Outcome := finish (defaultOpcodeMap .prn) s (prnPhase a s)

end Sys2Proof.Machine
end

