-- ==== Sys2Proof/Machine/Stack.lean ====
section
/-! DEFINITION. PUSH and POP (42_stack.md R150 to R152). Statements run in the order written, and a later one sees an
earlier one's write (R10; log 12). -/

namespace Sys2Proof.Machine

/-- R150: SP is decremented, then x[A] is read and stored. -/
def pushPhase (a : Reg) (s : State) : Phase :=
  match s.decSp.storeAtSp (s.decSp.reg a) with
  | .error f => .raised f
  | .ok t => .done .advance t

/-- R151: x[A] is loaded, then SP is read and incremented. -/
def popPhase (a : Reg) (s : State) : Phase :=
  match s.loadAtSp with
  | .error f => .raised f
  | .ok v => .done .advance (s.setReg a v).incSp

/-- PUSH (R150). -/
def execPush (a : Reg) (s : State) : Outcome := finish (defaultOpcodeMap .push) s (pushPhase a s)

/-- POP (R151). -/
def execPop (a : Reg) (s : State) : Outcome := finish (defaultOpcodeMap .pop) s (popPhase a s)

end Sys2Proof.Machine
end

