-- ==== Sys2Proof/Machine/Cycle.lean ====
section
/-! DEFINITION. The fetch-decode-execute cycle (30_encoding.md R86 to R95), over both parameters of R8 and over the function
that executes a decoded instruction. -/

namespace Sys2Proof.Machine

/-- The execute phase alone of each instruction, with the opcode byte its core gives it: what the parametric core runs. -/
def phase (op : Byte) (i : Instr) (s : State) : Phase :=
  match i with
  | .ldi a imm => ldiPhase a imm s
  | .prn a => prnPhase a s
  | .add a b => aluPhase aluAdd a b s
  | .sub a b => aluPhase aluSub a b s
  | .mul a b => aluPhase aluMul a b s
  | .div a b => divPhase a b s
  | .and a b => aluPhase aluAnd a b s
  | .or a b => aluPhase aluOr a b s
  | .xor a b => aluPhase aluXor a b s
  | .cmp a b => cmpPhase a b s
  | .push a => pushPhase a s
  | .pop a => popPhase a s
  | .call a => callPhase a s
  | .ret => retPhase s
  | .jmp a => jmpPhase a s
  | .jeq a => jeqPhase a s
  | .jne a => jnePhase a s
  | .hlt => hltPhase op s

/-- Execute an instruction whose opcode byte is op, whatever the opcode map. -/
def execOp (op : Byte) (i : Instr) (s : State) : Outcome := finish op s (phase op i s)

/-- R87 from the operand fetch on, for a known operation: operand bytes b[1..n] (latched already in the eager form), the
register check in operand order (R92), Execute. -/
def operandsExecute (p : Params) (run : Byte → Instr → State → Outcome) (s : State) (op : Byte) (o : Op)
    (latched : List Byte) : Outcome :=
  match if p.eagerOperandFetch then .ok (latched.take (operandCount op))
      else s.mem.portReadMany (s.pc + 1) (operandCount op) with
  | .error f => .next (s.raise f (some op))
  | .ok operands =>
    match firstBadRegister o.format operands with
    | some (i, b) => .next (s.raise (.invalidRegister (s.pc + BitVec.ofNat 9 i) b) (some op))
    | none =>
      match (Raw.mk o operands).toInstr? with
      | none => .refused .opcodeMapInvalid
      | some i => run op i s

/-- R87 from the decode on (R89). -/
def decodeExecute (p : Params) (run : Byte → Instr → State → Outcome) (s : State) (op : Byte) (latched : List Byte) :
    Outcome :=
  match p.opcodeMap.lookup op with
  | none => .next (s.raise (.unknownOpcode s.pc op) (some op))
  | some o => operandsExecute p run s op o latched

/-- R87 whole, for a Running core: the opcode byte (R88), with EAGER_OPERAND_FETCH both bytes after it (R91), then decode. -/
def fetchExecute (p : Params) (run : Byte → Instr → State → Outcome) (s : State) : Outcome :=
  match s.mem.portRead s.pc with
  | .error f => .next (s.raise f none)
  | .ok op =>
    match if p.eagerOperandFetch then s.mem.portReadMany (s.pc + 1) 2 else .ok [] with
    | .error f => .next (s.raise f (some op))
    | .ok latched => decodeExecute p run s op latched

/-- One step (R86). In Ready and Halted the core takes no step and nothing changes, so the state is answered as it is
(DESIGN CHOICE, safe: log 1). -/
def cycle (p : Params) (run : Byte → Instr → State → Outcome) (s : State) : Outcome :=
  match s.run with
  | .ready => .next s
  | .halted => .next s
  | .running => fetchExecute p run s

end Sys2Proof.Machine
end

