-- ==== Sys2Proof/Machine/Step.lean ====
section
/-! DEFINITION. One step of the core with the default parameters, one step of the core with any, and the host's placing of an
instruction where the next step fetches it. -/

namespace Sys2Proof.Machine

/-- One step of the core with the defaults of R8: the cycle of R87 around exec. -/
def step (s : State) : Host.Outcome State Fault Refusal := cycle defaultParams (fun _ i t => exec i t) s

/-- One step of a core built with any parameters (R8). -/
def stepWith (p : Params) (s : State) : Host.Outcome State Fault Refusal := cycle p execOp s

/-- The state whose next step fetches and runs the instruction with these bits: its three bytes stored at pc, as the loader
would, and run = Running, as start leaves it (log 2). -/
def State.withFetchWord (s : State) (nbits w : Nat) : State :=
  { s with mem := s.mem.writeMany s.pc.toNat (tableBytes nbits w), run := .running }

end Sys2Proof.Machine
end

