-- ==== Sys2Proof/Machine/Ports.lean ====
section
/-! DEFINITION. The host's ports at transaction level (60_exceptions.md R220 to R225) and the loader's contract with the core
(70_reset_and_hazards.md R232 to R237). The memory port is in Ops.lean; the out port is State's field out. No step calls
these: they are what the host may do between steps (log 9). -/

namespace Sys2Proof.Machine

/-- What the host may ask the core to do (R220): its three host-to-core ports. -/
inductive HostAction where
  | reset
  | loadWr (addr data : Byte)
  | start
  deriving DecidableEq, Repr

/-- The reset port: the reset state, from any run state, everything before it discarded (R230, R232). -/
def State.resetPort (_ : State) : State := State.reset

/-- The load_wr port: a memory write by the loader, accepted only while run = Ready (R220, R222). Elsewhere it changes
nothing. -/
def State.loadWr (s : State) (addr data : Byte) : State :=
  match s.run with
  | .ready => s.setMem (s.mem.write addr.toNat data)
  | .running => s
  | .halted => s

/-- The start port: Ready becomes Running, and in Running or Halted it has no effect (R221). -/
def State.start (s : State) : State :=
  match s.run with
  | .ready => { s with run := .running }
  | .running => s
  | .halted => s

/-- One host action. -/
def State.host (s : State) : HostAction → State
  | .reset => s.resetPort
  | .loadWr addr data => s.loadWr addr data
  | .start => s.start

/-- The numeric CAUSE code of the status port (R34, R200). -/
def Cause.code : Cause → BitVec 3
  | .none => 0
  | .hlt => 1
  | .unknownOpcode => 2
  | .outOfBounds => 3
  | .divisionByZero => 4
  | .invalidRegister => 5

/-- The status port: run, CAUSE as its code, and the other fields of the halt record (R209, R220). -/
structure Status where
  run : RunState
  cause : BitVec 3
  fpc : Addr
  fopc : Byte
  fopcV : Bool
  faddr : Addr
  faddrV : Bool
  deriving DecidableEq, Repr

/-- The status port, readable at any time (R220, R222). -/
def State.status (s : State) : Status where
  run := s.run
  cause := s.haltRec.cause.code
  fpc := s.haltRec.fpc
  fopc := s.haltRec.fopc
  fopcV := s.haltRec.fopcV
  faddr := s.haltRec.faddr
  faddrV := s.haltRec.faddrV

/-- What the trace port shows (R224): pc, the three bytes from pc, the registers. Not the flags (90_conflicts.md C10). -/
structure Trace where
  pc : Addr
  byte0 : Option Byte
  byte1 : Option Byte
  byte2 : Option Byte
  regs : Vector Byte 8
  deriving DecidableEq, Repr

/-- A memory byte for the trace: absent above 255, never a fault (R224). -/
def Memory.traceByte (m : Memory) (a : Nat) : Option Byte := if a < Config.memSize then some (m.read a) else none

/-- The trace port, readable at any time (R222, R224). -/
def State.trace (s : State) : Trace where
  pc := s.pc
  byte0 := s.mem.traceByte s.pc.toNat
  byte1 := s.mem.traceByte (s.pc.toNat + 1)
  byte2 := s.mem.traceByte (s.pc.toNat + 2)
  regs := s.regs

/-- The readout port: the whole state, while run is Ready or Halted (R225; log 9). -/
def State.readout (s : State) : Option State :=
  match s.run with
  | .ready => some s
  | .running => none
  | .halted => some s

/-! ### The loader's contract -/

/-- The loader's writes of an image, one load_wr each, at rising addresses from `addr` (R236). -/
def State.loadFrom (s : State) (addr : Nat) : List Byte → State
  | [] => s
  | b :: bs => (s.loadWr (BitVec.ofNat 8 addr) b).loadFrom (addr + 1) bs

/-- Load an image from address 0 (R236). An image of more than 256 bytes is InvalidProgramImage: none, and nothing is
loaded (R237). -/
def State.loadImage (s : State) (image : List Byte) : Option State :=
  if image.length ≤ Config.memSize then some (s.loadFrom 0 image) else none

/-- A line of a program image as the loader reads it (R237). How a line's text is read is the loader's (00_scope.md R6). -/
inductive ImageLine where
  /-- blank, or a comment -/
  | blank
  /-- not a base-2 literal: skipped, no error -/
  | malformed
  /-- a base-2 literal of this value -/
  | literal (n : Nat)
  deriving DecidableEq, Repr

/-- The bytes of an image's lines: blank and malformed lines are skipped, and a literal above 255 is
InvalidProgramImage (R237). -/
def imageBytes : List ImageLine → Option (List Byte)
  | [] => some []
  | .blank :: ls => imageBytes ls
  | .malformed :: ls => imageBytes ls
  | .literal n :: ls => if n ≤ 255 then (imageBytes ls).map (BitVec.ofNat 8 n :: ·) else none

/-- The boot order: reset, load the image, start; none for an invalid image, and then the core is not started (R234, R237). -/
def boot (lines : List ImageLine) : Option State :=
  ((imageBytes lines).bind State.reset.loadImage).map State.start

end Sys2Proof.Machine
end

