-- ==== Sys2Proof/Safety.lean ====
section
/-! DEFINITION. The terms claims use: the invariant of every reachable state, the two ends of a run, and a safe run. -/

namespace Sys2Proof.Machine

/-- The flags register holds 0 or exactly one of E, G and L, and bits 7:3 are 0 (10_state.md R29, R30). -/
def State.flagsLegal (s : State) : Prop := s.fl = 0 ∨ s.fl = 1 ∨ s.fl = 2 ∨ s.fl = 4

/-- The halt record of a core that has not halted is all zero, and that of a halted core is one of the rows of
60_exceptions.md R208, with pc where R95 or R207 leaves it. What FOPC holds is `State.fopcLegal`. -/
def State.haltRecLegal (s : State) : Prop :=
  match s.haltRec.cause with
  | .none => s.run ≠ .halted ∧ s.haltRec = HaltRec.zero
  | .hlt =>
    s.run = .halted ∧ s.pc = s.haltRec.fpc + 1 ∧ s.haltRec.fpc.toNat ≤ 255 ∧ s.haltRec.fopcV = true ∧
      s.haltRec.faddr = 0 ∧ s.haltRec.faddrV = false
  | .unknownOpcode =>
    s.run = .halted ∧ s.pc = s.haltRec.fpc ∧ s.pc.toNat ≤ 255 ∧ s.haltRec.fopcV = true ∧
      s.haltRec.faddr = s.pc ∧ s.haltRec.faddrV = true
  | .outOfBounds =>
    s.run = .halted ∧ s.pc = s.haltRec.fpc ∧ s.haltRec.faddr = 256 ∧ s.haltRec.faddrV = true ∧
      ((s.pc = 256 ∧ s.haltRec.fopcV = false ∧ s.haltRec.fopc = 0) ∨
        (254 ≤ s.pc.toNat ∧ s.pc.toNat ≤ 255 ∧ s.haltRec.fopcV = true))
  | .divisionByZero =>
    s.run = .halted ∧ s.pc = s.haltRec.fpc ∧ s.pc.toNat ≤ 255 ∧ s.haltRec.fopcV = true ∧
      s.haltRec.faddr = 0 ∧ s.haltRec.faddrV = false
  | .invalidRegister =>
    s.run = .halted ∧ s.pc = s.haltRec.fpc ∧ s.haltRec.fopcV = true ∧ s.haltRec.faddrV = true ∧
      (s.haltRec.faddr = s.pc + 1 ∨ s.haltRec.faddr = s.pc + 2) ∧ s.haltRec.faddr.toNat ≤ 255 ∧ s.pc.toNat ≤ 255

/-- FOPC is the opcode byte at FPC when it was fetched, and else 0 (10_state.md R34). The byte is still in memory: no step
that writes the halt record writes memory (R180, R207). So it is the byte of the opcode map in use, whichever that is. -/
def State.fopcLegal (s : State) : Prop :=
  s.haltRec.fopc = if s.haltRec.fopcV = true then s.mem.read s.haltRec.fpc.toNat else 0

/-- A core that is Ready has run nothing: all but memory is as reset leaves it (R33, R233). -/
def State.readyFresh (s : State) : Prop := s.run = .ready → s = { State.reset with mem := s.mem }

/-- The invariant of the machine: what holds at reset, after every step and after every host action. -/
structure State.Inv (s : State) : Prop where
  /-- memory keeps its canonical form (log 7) -/
  mem : s.mem.wf = true
  /-- pc is 0 to 256 (R27) -/
  pc : s.pc.toNat ≤ 256
  flags : s.flagsLegal
  haltRec : s.haltRecLegal
  fopc : s.fopcLegal
  fresh : s.readyFresh

/-- The normal end of a run: Halted by HLT (30_encoding.md R96). -/
def State.endedNormally (s : State) : Bool := s.run == .halted && s.haltRec.cause == .hlt

/-- The fatal end of a run: Halted by a fatal condition, CAUSE 2 to 5 (R96). -/
def State.endedFatally (s : State) : Bool :=
  s.run == .halted && s.haltRec.cause != .hlt && s.haltRec.cause != .none

/-- A safe run: no number of steps reaches a fatal end. -/
def SafeFrom (s : State) : Prop := ∀ k t, Sys2Proof.core.run k s = .next t → t.endedFatally = false

end Sys2Proof.Machine
end

