-- ==== Sys2Proof/Certificates/Slice0/Obligations.lean ====
section
/-! DEFINITION. The statements for the provers. `R<n>` is a rule of spec/, `D<n>` a decision of spec/92_eei_decisions.md
(the spec's own choice where its source is open), "log <n>" a row of notes/assumptions/. -/

open Sys2Proof Sys2Proof.Machine

/-! ### Encoding -/

/-- Decode and encode agree, for every instruction and every operand, whatever bytes follow: under every OPCODE_MAP that
R8 allows, and under the default (R70, R75 to R77, R80, R81). The default's byte values are D2's (log 4). -/
def Obligations.DecodeOfEncode : Prop :=
  (∀ m : OpcodeMap, m.wellFormed = true → ∀ (i : Instr) (rest : List Byte),
    decodeWith m (encodeWith m i ++ rest) = .ok (i, rest)) ∧
  (∀ (i : Instr) (rest : List Byte), decode (encode i ++ rest) = .ok (i, rest))

/-- The other direction: bytes that decode are the encoding of what they decode to, followed by the bytes left over, so no
two byte strings stand for one instruction and no bit of an operand byte is ignored (R76, R77), under every map. -/
def Obligations.EncodeOfDecode : Prop :=
  ∀ (m : OpcodeMap) (bytes : List Byte) (i : Instr) (rest : List Byte),
    decodeWith m bytes = .ok (i, rest) → bytes = encodeWith m i ++ rest

/-- R74: an instruction's length comes from its opcode byte alone, as operand_count + 1: whatever follows, a decoded
instruction takes that many bytes, and the bytes left over are those after them. -/
def Obligations.LengthFromOpcodeByte : Prop :=
  ∀ (m : OpcodeMap) (op : Byte) (more : List Byte) (i : Instr) (rest : List Byte),
    decodeWith m (op :: more) = .ok (i, rest) →
      (op :: more).length = operandCount op + 1 + rest.length ∧ rest = (op :: more).drop (operandCount op + 1)

/-- R73: controls_pc is set exactly for JMP, JEQ, JNE, CALL and RET, in every map that R8 allows. -/
def Obligations.ControlBitExactlyForFive : Prop :=
  ∀ m : OpcodeMap, m.wellFormed = true → ∀ o : Op,
    (controlsPc (m o) = true ↔ o = .jmp ∨ o = .jeq ∨ o = .jne ∨ o = .call ∨ o = .ret)

/-- R72 and R81: in every map that R8 allows bits 7:6 are the operand count, so a byte whose bits 7:6 are 11 is an unknown
opcode. The default is such a map. R72 and R81 are inferences the spec marks as derived. -/
def Obligations.CountBitsOfEveryMap : Prop :=
  defaultOpcodeMap.wellFormed = true ∧
  ∀ m : OpcodeMap, m.wellFormed = true →
    (∀ o : Op, operandCount (m o) = o.format.operandCount) ∧ (∀ b : Byte, operandCount b = 3 → m.lookup b = none)

/-- R83: 238 of the 256 byte values select no instruction, 0x00 among them; under the default map (D2, log 4). -/
def Obligations.UnknownOpcodeBytes : Prop :=
  ((List.range 256).filter fun n => (defaultOpcodeMap.lookup (BitVec.ofNat 8 n)).isNone).length = 238 ∧
  defaultOpcodeMap.lookup 0x00 = none

/-- Words written out from R80 and R75, one for each format and each family: `82 00 08` is LDI R0,8 (95_test_vectors.md W1),
and so on. All bytes but LDI's, PRN's and HLT's are D2's (log 4). -/
def Obligations.SpecWordsDecode : Prop :=
  decode [0b10000010, 0b00000000, 0b00001000] = .ok (.ldi 0 8, []) ∧
  decode [0b01000111, 0b00000111] = .ok (.prn 7, []) ∧
  decode [0b10100001, 0b00000010, 0b00000101] = .ok (.sub 2 5, []) ∧
  decode [0b01000110, 0b00000001, 0xFF] = .ok (.pop 1, [0xFF]) ∧
  decode [0b01010000, 0b00000100] = .ok (.call 4, []) ∧
  decode [0b00010001] = .ok (.ret, []) ∧
  decode [0b00000001] = .ok (.hlt, []) ∧
  decode [0b10100000, 0b00001001, 0b00000001] = .error (.invalidRegister 1 9) ∧
  decode [0b00000000] = .error (.unknownOpcode 0)

/-! ### Reset, the loader and the ports -/

/-- R39 and R230: every value at reset. The halt record's zero is D12's choice. -/
def Obligations.ResetValues : Prop :=
  (∀ r : Reg, State.reset.reg r = if r = 7 then 0xF4 else 0) ∧ State.reset.pc = 0 ∧ State.reset.fl = 0 ∧
  (∀ a : Nat, State.reset.mem.read a = 0) ∧ State.reset.run = .ready ∧ State.reset.out = [] ∧
  State.reset.haltRec = { cause := .none, fpc := 0, fopc := 0, fopcV := false, faddr := 0, faddrV := false }

/-- R221, R222, R232 (D14, D19): reset gives the reset state from any state. Start moves Ready to Running and changes
nothing else. In Running and Halted neither start nor a load changes anything. -/
def Obligations.HostActionEffects : Prop :=
  (∀ s : State, s.host .reset = State.reset) ∧
  (∀ s : State, s.run = .ready → s.host .start = { s with run := .running }) ∧
  (∀ (s : State) (act : HostAction), s.run ≠ .ready → act ≠ .reset → s.host act = s)

/-- R220 (D14): a load_wr in Ready writes its cell, leaves every other cell, and changes no other state. -/
def Obligations.LoadWriteInReady : Prop :=
  ∀ (s : State) (addr data : Byte), s.run = .ready →
    (s.host (.loadWr addr data)).mem.read addr.toNat = data ∧
    (∀ a : Nat, a ≠ addr.toNat → (s.host (.loadWr addr data)).mem.read a = s.mem.read a) ∧
    s.host (.loadWr addr data) = { s with mem := (s.host (.loadWr addr data)).mem }

/-- R236: the k-th byte of an image goes to MEM[k], the other cells keep their reset value 0, and nothing else changes.
The loader writes only in Ready. The last clause, that an image of more than 256 bytes is refused, is R237's, the spec's
choice D15; that it is answered with none is the model's (DESIGN CHOICE, log 17). -/
def Obligations.LoaderContract : Prop :=
  (∀ image : List Byte, image.length ≤ 256 →
    ∃ t, State.reset.loadImage image = some t ∧
      (∀ (k : Nat) (b : Byte), image[k]? = some b → t.mem.read k = b) ∧
      (∀ a : Nat, image.length ≤ a → t.mem.read a = 0) ∧
      t = { State.reset with mem := t.mem }) ∧
  (∀ (s : State) (image : List Byte), s.run ≠ .ready → ∀ t, s.loadImage image = some t → t = s) ∧
  (∀ (s : State) (image : List Byte), 256 < image.length → s.loadImage image = none)

/-- R237 (D15): a literal above 255 anywhere in the image, or more than 256 bytes, is InvalidProgramImage and the core is
not started. Blank and malformed lines change nothing. -/
def Obligations.InvalidImageNotStarted : Prop :=
  (∀ (ls ks : List ImageLine) (n : Nat), 255 < n → boot (ls ++ .literal n :: ks) = none) ∧
  (∀ (ls : List ImageLine) (bytes : List Byte), imageBytes ls = some bytes → 256 < bytes.length → boot ls = none) ∧
  (∀ ls ks : List ImageLine, imageBytes (ls ++ .blank :: ks) = imageBytes (ls ++ ks) ∧
    imageBytes (ls ++ .malformed :: ks) = imageBytes (ls ++ ks))

/-- R231, R234 and R236: after reset, load and start the core is Running, the first fetch is at address 0, the image's bytes
are at 0 and above, every cell above the image is 0, and all other state is as at reset. -/
def Obligations.BootRunsImageFromZero : Prop :=
  ∀ (ls : List ImageLine) (bytes : List Byte), imageBytes ls = some bytes → bytes.length ≤ 256 →
    ∃ s, boot ls = some s ∧ s.run = .running ∧ s.pc = 0 ∧
      (∀ (k : Nat) (b : Byte), bytes[k]? = some b → s.mem.read k = b) ∧
      (∀ a : Nat, bytes.length ≤ a → s.mem.read a = 0) ∧
      s = { State.reset with mem := s.mem, run := .running }

/-- R220, R224, R225 (D14, D18): the trace is pc, the bytes at pc, pc+1 and pc+2 with those above 255 absent, and the
registers. Readout gives the whole state exactly outside Running. The status port gives the CAUSE code of R34 (D12). -/
def Obligations.PortValues : Prop :=
  (∀ s : State, s.trace.pc = s.pc ∧ s.trace.regs = s.regs ∧
    (s.pc.toNat ≤ 253 → s.trace.byte0 = some (s.mem.read s.pc.toNat) ∧
      s.trace.byte1 = some (s.mem.read (s.pc.toNat + 1)) ∧ s.trace.byte2 = some (s.mem.read (s.pc.toNat + 2))) ∧
    (254 ≤ s.pc.toNat → s.trace.byte2 = none) ∧ (255 ≤ s.pc.toNat → s.trace.byte1 = none) ∧
    (s.pc.toNat ≤ 255 → s.trace.byte0 = some (s.mem.read s.pc.toNat)) ∧
    (s.pc.toNat ≤ 254 → s.trace.byte1 = some (s.mem.read (s.pc.toNat + 1))) ∧
    (256 ≤ s.pc.toNat → s.trace.byte0 = none)) ∧
  (∀ s : State, (s.run = .running → s.readout = none) ∧ (s.run ≠ .running → s.readout = some s)) ∧
  (∀ s : State, s.status.run = s.run ∧
    s.status.cause = (match s.haltRec.cause with
      | .none => 0
      | .hlt => 1
      | .unknownOpcode => 2
      | .outOfBounds => 3
      | .divisionByZero => 4
      | .invalidRegister => 5) ∧
    s.status.fpc = s.haltRec.fpc ∧ s.status.fopc = s.haltRec.fopc ∧ s.status.fopcV = s.haltRec.fopcV ∧
    s.status.faddr = s.haltRec.faddr ∧ s.status.faddrV = s.haltRec.faddrV)

/-! ### Memory -/

/-- R52 (its list of the addresses that can arise is derived by the spec): the port fails exactly above 255, naming the
address. A read gives the cell; a write makes its cell the byte and leaves every other cell (R53, R60). -/
def Obligations.MemoryPort : Prop :=
  (∀ (m : Memory) (a : Addr), 255 < a.toNat →
    m.portRead a = .error (.outOfBoundsAccess a) ∧ ∀ v, m.portWrite a v = .error (.outOfBoundsAccess a)) ∧
  (∀ (m : Memory) (a : Addr), a.toNat ≤ 255 → m.portRead a = .ok (m.read a.toNat)) ∧
  (∀ (m : Memory) (a : Addr) (v : Byte), a.toNat ≤ 255 →
    ∃ m', m.portWrite a v = .ok m' ∧ m'.read a.toNat = v ∧ ∀ b : Nat, b ≠ a.toNat → m'.read b = m.read b)

/-! ### The step -/

/-- R86: in Ready and Halted nothing changes. That a step there answers the state itself is the model's choice (log 1). -/
def Obligations.NoStepUnlessRunning : Prop :=
  ∀ s : State, s.run ≠ .running → step s = .next s

/-- No step of the core ends in a fault or a refusal of the model, from any state. The model's choices in it: a Running core's
fatal conditions are next states (R207; DEDUCED, log 3), and in Ready and Halted, where R86 takes no step, the state itself
is answered (DESIGN CHOICE, log 1). -/
def Obligations.StepAlwaysAnswers : Prop :=
  ∀ s : State, ∃ t, step s = .next t

/-- R87, R90: when the bytes at pc decode, a step of a Running core is exec of the decoded instruction in that state; the
pc update of R93 is part of exec. -/
def Obligations.StepRunsDecodedInstruction : Prop :=
  ∀ (s : State) (i : Instr) (rest : List Byte), s.run = .running → decode s.fetchBytes = .ok (i, rest) →
    step s = exec i s

/-- The same for a core with any opcode map and either form of operand fetch (R8, R91, D7). The eager form needs pc+2 in
memory. exec of the instruction is then its phase under that map's opcode byte. -/
def Obligations.StepWithRunsDecodedInstruction : Prop :=
  ∀ (p : Params) (s : State) (i : Instr) (rest : List Byte), s.run = .running →
    (p.eagerOperandFetch = true → s.pc.toNat ≤ 253) → decodeWith p.opcodeMap s.fetchBytes = .ok (i, rest) →
    stepWith p s = execOp (p.opcodeMap i.op) i s

/-- The default core is the parametric core at the defaults of R8: the meanings that exec dispatches to and the phases the
parametric core runs are one semantics. -/
def Obligations.StepIsStepWithDefaults : Prop :=
  (∀ (i : Instr) (s : State), exec i s = execOp (defaultOpcodeMap i.op) i s) ∧ ∀ s : State, step s = stepWith defaultParams s

/-- R206 and R208 (D9, D12, D13), items 1 to 4 of the default form, under every opcode map that R8 allows: which fatal condition
ends the step, in which order, and what it records, FOPC being the fetched byte of the map in use. Each clause supposes that
no earlier one applies. The core of this row is the one with the default map (log 4). -/
def Obligations.FatalOrderBeforeExecute : Prop :=
  (defaultOpcodeMap.wellFormed = true ∧ ∀ s : State, step s = stepWith ⟨defaultOpcodeMap, false⟩ s) ∧
  ∀ m : OpcodeMap, m.wellFormed = true → ∀ s : State, s.run = .running →
    (255 < s.pc.toNat → stepWith ⟨m, false⟩ s = .next (s.raise (.outOfBoundsAccess s.pc) none)) ∧
    ∀ op : Byte, s.pc.toNat ≤ 255 → s.mem.read s.pc.toNat = op →
      (m.lookup op = none → stepWith ⟨m, false⟩ s = .next (s.raise (.unknownOpcode s.pc op) (some op))) ∧
      ∀ o : Op, m.lookup op = some o →
        (255 < s.pc.toNat + operandCount op →
          stepWith ⟨m, false⟩ s = .next (s.raise (.outOfBoundsAccess 256) (some (m o)))) ∧
        (s.pc.toNat + operandCount op ≤ 255 → ∀ first second : Byte,
          s.mem.read (s.pc.toNat + 1) = first → s.mem.read (s.pc.toNat + 2) = second →
          (1 ∈ o.format.registerPositions → 7 < first.toNat →
            stepWith ⟨m, false⟩ s = .next (s.raise (.invalidRegister (s.pc + 1) first) (some (m o)))) ∧
          ((1 ∈ o.format.registerPositions → first.toNat ≤ 7) → 2 ∈ o.format.registerPositions → 7 < second.toNat →
            stepWith ⟨m, false⟩ s = .next (s.raise (.invalidRegister (s.pc + 2) second) (some (m o)))))

/-- R207 and R208 (D11, D12): what taking a fatal condition writes and leaves. -/
def Obligations.FatalEntry : Prop :=
  ∀ (s : State) (f : Fatal) (op : Option Byte),
    (s.raise f op).run = .halted ∧ (s.raise f op).pc = s.pc ∧ (s.raise f op).regs = s.regs ∧
    (s.raise f op).fl = s.fl ∧ (s.raise f op).mem = s.mem ∧ (s.raise f op).out = s.out ∧
    (s.raise f op).haltRec.fpc = s.pc ∧
    (∀ b : Byte, op = some b → (s.raise f op).haltRec.fopc = b ∧ (s.raise f op).haltRec.fopcV = true) ∧
    (op = none → (s.raise f op).haltRec.fopc = 0 ∧ (s.raise f op).haltRec.fopcV = false) ∧
    (match f with
      | .unknownOpcode a _ => (s.raise f op).haltRec.cause = .unknownOpcode ∧
          (s.raise f op).haltRec.faddr = a ∧ (s.raise f op).haltRec.faddrV = true
      | .outOfBoundsAccess a => (s.raise f op).haltRec.cause = .outOfBounds ∧
          (s.raise f op).haltRec.faddr = a ∧ (s.raise f op).haltRec.faddrV = true
      | .divisionByZero => (s.raise f op).haltRec.cause = .divisionByZero ∧
          (s.raise f op).haltRec.faddr = 0 ∧ (s.raise f op).haltRec.faddrV = false
      | .invalidRegister a _ => (s.raise f op).haltRec.cause = .invalidRegister ∧
          (s.raise f op).haltRec.faddr = a ∧ (s.raise f op).haltRec.faddrV = true)

/-- R207 (D11): faults are precise. A step that ends Halted by anything but HLT changed only run and the halt record, and
recorded its own pc. -/
def Obligations.FatalStepsArePrecise : Prop :=
  ∀ s t : State, s.run = .running → step s = .next t → t.run = .halted → t.haltRec.cause ≠ .hlt →
    t = { s with run := .halted, haltRec := t.haltRec } ∧ t.haltRec.fpc = s.pc ∧ t.haltRec.cause ≠ .none

/-- R206 item 5, with R202 and R203 (D8, D13): in the execute phase only DIV by 0 and CALL above 253 are fatal; beside them
only HLT halts. -/
def Obligations.ExecuteHaltsOnlyThus : Prop :=
  ∀ (i : Instr) (s t : State), s.run = .running → exec i s = .next t → t.run = .halted →
    i = .hlt ∨ (∃ a b, i = .div a b ∧ s.reg b = 0) ∨ (∃ a, i = .call a ∧ 253 < s.pc.toNat)

/-- R91 and R206 (D7): the eager form of operand fetch differs from the default only where the bytes end: at 254 and 255 it
is OutOfBoundsAccess(256) whatever the opcode byte, known or not, and elsewhere the two forms are the same step. -/
def Obligations.EagerFetchDiffersOnlyAtTop : Prop :=
  ∀ (m : OpcodeMap) (s : State), m.wellFormed = true → s.run = .running →
    (s.pc.toNat = 254 ∨ s.pc.toNat = 255 →
      stepWith ⟨m, true⟩ s = .next (s.raise (.outOfBoundsAccess 256) (some (s.mem.read s.pc.toNat)))) ∧
    (s.pc.toNat ≠ 254 → s.pc.toNat ≠ 255 → stepWith ⟨m, true⟩ s = stepWith ⟨m, false⟩ s)

/-- R206 item 5, R180 and R208 with its note (D8, D12; log 15), under every opcode map that R8 allows and both forms of operand
fetch: DIV by 0, CALL above 253 and HLT halt the core, and FOPC holds that map's byte of the instruction. That HLT's record
holds the map's byte, where R180 writes 0x01, is the model's reading of that note (log 15). -/
def Obligations.HaltsUnderEveryMap : Prop :=
  ∀ (p : Params) (s : State) (rest : List Byte), p.opcodeMap.wellFormed = true → s.run = .running →
    (p.eagerOperandFetch = true → s.pc.toNat ≤ 253) →
    (∀ a b : Reg, decodeWith p.opcodeMap s.fetchBytes = .ok (.div a b, rest) → s.reg b = 0 →
      stepWith p s = .next (s.raise .divisionByZero (some (p.opcodeMap .div)))) ∧
    (∀ a : Reg, decodeWith p.opcodeMap s.fetchBytes = .ok (.call a, rest) → 253 < s.pc.toNat →
      stepWith p s = .next (s.raise (.outOfBoundsAccess 256) (some (p.opcodeMap .call)))) ∧
    (decodeWith p.opcodeMap s.fetchBytes = .ok (.hlt, rest) →
      stepWith p s = .next
        { s with
          run := .halted, pc := s.pc + 1,
          haltRec := { cause := .hlt, fpc := s.pc, fopc := p.opcodeMap .hlt, fopcV := true, faddr := 0, faddrV := false } })

/-! ### Invariants -/

/-- The invariant holds at reset (R39). -/
def Obligations.ResetMeetsInvariant : Prop :=
  State.reset.Inv

/-- Every step keeps the invariant: canonical memory, pc in 0 to 256 (R27, D6), flags 0 or one of E, G, L (R29, R30), a halt
record that is zero until the core halts and then one of R208's rows, FOPC the byte at FPC included (R34), with pc where R95
and R207 leave it (D11, D12). -/
def Obligations.StepKeepsInvariant : Prop :=
  ∀ s t : State, s.Inv → step s = .next t → t.Inv

/-- So does every step of a core built with any parameters R8 allows, eager operand fetch included. -/
def Obligations.StepWithKeepsInvariant : Prop :=
  ∀ (p : Params) (s t : State), p.opcodeMap.wellFormed = true → s.Inv → stepWith p s = .next t → t.Inv

/-- So does every action of the host (R220 to R222, R232). -/
def Obligations.HostKeepsInvariant : Prop :=
  ∀ (s : State) (act : HostAction), s.Inv → (s.host act).Inv

/-- Every state of every run of every loaded image meets the invariant (R234, R27, R30, R208), and every step of the run answers
a next state. That rests on the model's choices: a fatal condition is a next state (log 3), and a step after Halted answers
the state itself (log 1). -/
def Obligations.BootedRunsMeetInvariant : Prop :=
  ∀ (ls : List ImageLine) (s : State) (k : Nat), boot ls = some s → ∃ t, Sys2Proof.core.run k s = .next t ∧ t.Inv

/-- R33, R181, R218 (D19; a step in Halted answers the state itself, log 1): Halted is terminal for every number of steps
and every host action but reset. -/
def Obligations.HaltedIsTerminal : Prop :=
  (∀ (s : State) (k : Nat), s.run = .halted → Sys2Proof.core.run k s = .next s) ∧
  (∀ (s : State) (act : HostAction), s.run = .halted → act ≠ .reset → s.host act = s)

/-- R34 (D12): no instruction writes the halt record; the core writes it once, when run goes from Running to Halted. -/
def Obligations.HaltRecordWrittenOnHalt : Prop :=
  ∀ s t : State, step s = .next t → t.haltRec ≠ s.haltRec → s.run = .running ∧ t.run = .halted

/-! ### What each instruction does, and what it leaves -/

/-- LDI (R100): x[A] becomes the immediate, for R7 too; pc + 3; nothing else changes. -/
def Obligations.LdiResult : Prop :=
  ∀ (a : Reg) (imm : Byte) (s : State), ∃ t, exec (.ldi a imm) s = .next t ∧ t.reg a = imm ∧
    (∀ r, r ≠ a → t.reg r = s.reg r) ∧ t.pc = s.pc + 3 ∧ t.fl = s.fl ∧ (∀ x, t.mem.read x = s.mem.read x) ∧
    t.run = s.run ∧ t.haltRec = s.haltRec ∧ t.out = s.out

/-- PRN (R101, R102): x[A] is appended to the output; pc + 2; nothing else changes. -/
def Obligations.PrnResult : Prop :=
  ∀ (a : Reg) (s : State), ∃ t, exec (.prn a) s = .next t ∧ t.out = s.out ++ [s.reg a] ∧
    (∀ r, t.reg r = s.reg r) ∧ t.pc = s.pc + 2 ∧ t.fl = s.fl ∧ (∀ x, t.mem.read x = s.mem.read x) ∧
    t.run = s.run ∧ t.haltRec = s.haltRec

/-- What an ALU step leaves beside register A: the other registers, the flags, every byte of memory, the run state, the
halt record and the output; and pc + 3. -/
def Sys2Proof.Machine.AluLeaves (a : Reg) (s t : State) : Prop :=
  (∀ r, r ≠ a → t.reg r = s.reg r) ∧ t.pc = s.pc + 3 ∧ t.fl = s.fl ∧ (∀ x, t.mem.read x = s.mem.read x) ∧
    t.run = s.run ∧ t.haltRec = s.haltRec ∧ t.out = s.out

/-- ADD, SUB and MUL (R120 to R122, R130; SUB is decodable by D3): the exact integer result modulo 256 in register A, R7
and A = B included. SUB's rule is stated as the spec writes it out, with 256 added. -/
def Obligations.AddSubMulResults : Prop :=
  ∀ (a b : Reg) (s : State),
    (∃ t, exec (.add a b) s = .next t ∧ (t.reg a).toNat = ((s.reg a).toNat + (s.reg b).toNat) % 256 ∧ AluLeaves a s t) ∧
    (∃ t, exec (.sub a b) s = .next t ∧
      (t.reg a).toNat = ((s.reg a).toNat + 256 - (s.reg b).toNat) % 256 ∧ AluLeaves a s t) ∧
    (∃ t, exec (.mul a b) s = .next t ∧ (t.reg a).toNat = ((s.reg a).toNat * (s.reg b).toNat) % 256 ∧ AluLeaves a s t)

/-- DIV (R123, D3, D4): with a divisor that is not 0, the quotient q of register A, as the integer with
q·vb ≤ va < (q+1)·vb; by 0, DivisionByZero is taken and nothing is written. -/
def Obligations.DivResult : Prop :=
  ∀ (a b : Reg) (s : State),
    (s.reg b ≠ 0 → ∃ t, exec (.div a b) s = .next t ∧
      (t.reg a).toNat * (s.reg b).toNat ≤ (s.reg a).toNat ∧
      (s.reg a).toNat < ((t.reg a).toNat + 1) * (s.reg b).toNat ∧ AluLeaves a s t) ∧
    (s.reg b = 0 → exec (.div a b) s = .next (s.raise .divisionByZero (some 0xA3)))

/-- AND, OR and XOR (R124 to R126): bit by bit. -/
def Obligations.AndOrXorResults : Prop :=
  ∀ (a b : Reg) (s : State),
    (∃ t, exec (.and a b) s = .next t ∧
      (∀ n, (t.reg a).getLsbD n = ((s.reg a).getLsbD n && (s.reg b).getLsbD n)) ∧ AluLeaves a s t) ∧
    (∃ t, exec (.or a b) s = .next t ∧
      (∀ n, (t.reg a).getLsbD n = ((s.reg a).getLsbD n || (s.reg b).getLsbD n)) ∧ AluLeaves a s t) ∧
    (∃ t, exec (.xor a b) s = .next t ∧
      (∀ n, (t.reg a).getLsbD n = ((s.reg a).getLsbD n ^^ (s.reg b).getLsbD n)) ∧ AluLeaves a s t)

/-- CMP's result (R131): E iff a = b, G iff a > b, L iff a < b, unsigned, so exactly one; bits 7:3 are 0 (R30). CMP writes no
register, and only fl and pc change (R127). -/
def Obligations.CmpResult : Prop :=
  ∀ (a b : Reg) (s : State), ∃ t, exec (.cmp a b) s = .next t ∧
    (t.flagE = true ↔ s.reg a = s.reg b) ∧ (t.flagG = true ↔ (s.reg b).toNat < (s.reg a).toNat) ∧
    (t.flagL = true ↔ (s.reg a).toNat < (s.reg b).toNat) ∧ (∀ n, 3 ≤ n → t.fl.getLsbD n = false) ∧
    (∀ r, t.reg r = s.reg r) ∧ t.pc = s.pc + 3 ∧ (∀ x, t.mem.read x = s.mem.read x) ∧
    t.run = s.run ∧ t.haltRec = s.haltRec ∧ t.out = s.out

/-- PUSH (R150, R152; D5, D10): SP goes down by 1 modulo 256, the byte at the new SP becomes x[A] as read after the decrement
(so PUSH R7 stores the new SP), every other byte and register stays, pc + 2. -/
def Obligations.PushResult : Prop :=
  ∀ (a : Reg) (s : State), ∃ t, exec (.push a) s = .next t ∧
    t.sp = s.sp - 1 ∧ (∀ r, r ≠ 7 → t.reg r = s.reg r) ∧
    t.mem.read s.decSp.sp.toNat = (if a = 7 then s.sp - 1 else s.reg a) ∧
    (∀ x, x ≠ s.decSp.sp.toNat → t.mem.read x = s.mem.read x) ∧
    t.pc = s.pc + 2 ∧ t.fl = s.fl ∧ t.run = s.run ∧ t.haltRec = s.haltRec ∧ t.out = s.out

/-- POP (R151, R152; D5, D10): x[A] becomes the byte at SP and SP goes up by 1 modulo 256; POP R7 leaves that byte plus 1 in
SP. The popped byte and all of memory stay, pc + 2. -/
def Obligations.PopResult : Prop :=
  ∀ (a : Reg) (s : State), ∃ t, exec (.pop a) s = .next t ∧
    (a ≠ 7 → t.reg a = s.mem.read s.sp.toNat ∧ t.sp = s.sp + 1) ∧
    (a = 7 → t.sp = s.mem.read s.sp.toNat + 1) ∧
    (∀ r, r ≠ a → r ≠ 7 → t.reg r = s.reg r) ∧ (∀ x, t.mem.read x = s.mem.read x) ∧
    t.pc = s.pc + 2 ∧ t.fl = s.fl ∧ t.run = s.run ∧ t.haltRec = s.haltRec ∧ t.out = s.out

/-- CALL (R160, R152; D5, D8, D10): up to address 253 the return address pc + 2 is pushed and x[A], read after the decrement,
becomes pc (so CALL R7 goes to the new SP). Above, OutOfBoundsAccess of the return address is taken: 256 at 254. -/
def Obligations.CallResult : Prop :=
  ∀ (a : Reg) (s : State),
    (s.pc.toNat ≤ 253 → ∃ t, exec (.call a) s = .next t ∧
      t.sp = s.sp - 1 ∧ (∀ r, r ≠ 7 → t.reg r = s.reg r) ∧
      (t.mem.read s.decSp.sp.toNat).toNat = s.pc.toNat + 2 ∧
      (∀ x, x ≠ s.decSp.sp.toNat → t.mem.read x = s.mem.read x) ∧
      t.pc.toNat = (if a = 7 then s.sp - 1 else s.reg a).toNat ∧
      t.fl = s.fl ∧ t.run = s.run ∧ t.haltRec = s.haltRec ∧ t.out = s.out) ∧
    (253 < s.pc.toNat → exec (.call a) s =
      .next (s.raise (.outOfBoundsAccess (BitVec.ofNat 9 (s.pc.toNat + 2))) (some 0x50)))

/-- RET (R161, R152; D5): pc becomes the byte at SP, SP goes up by 1 modulo 256, and nothing else changes. -/
def Obligations.RetResult : Prop :=
  ∀ s : State, ∃ t, exec .ret s = .next t ∧ t.pc.toNat = (s.mem.read s.sp.toNat).toNat ∧ t.sp = s.sp + 1 ∧
    (∀ r, r ≠ 7 → t.reg r = s.reg r) ∧ (∀ x, t.mem.read x = s.mem.read x) ∧ t.fl = s.fl ∧
    t.run = s.run ∧ t.haltRec = s.haltRec ∧ t.out = s.out

/-- JMP, JEQ and JNE (R162 to R164): JMP goes to x[A]; JEQ does when fl's bit 0 is set and JNE when it is clear, and else
they advance by 2. Only pc changes. -/
def Obligations.JumpResults : Prop :=
  ∀ (a : Reg) (s : State),
    (∃ t, exec (.jmp a) s = .next t ∧ t.pc.toNat = (s.reg a).toNat ∧ t = { s with pc := t.pc }) ∧
    (∃ t, exec (.jeq a) s = .next t ∧ (s.fl.getLsbD 0 = true → t.pc.toNat = (s.reg a).toNat) ∧
      (s.fl.getLsbD 0 = false → t.pc = s.pc + 2) ∧ t = { s with pc := t.pc }) ∧
    (∃ t, exec (.jne a) s = .next t ∧ (s.fl.getLsbD 0 = false → t.pc.toNat = (s.reg a).toNat) ∧
      (s.fl.getLsbD 0 = true → t.pc = s.pc + 2) ∧ t = { s with pc := t.pc })

/-- HLT (R180, R95; D12): Halted with CAUSE 1, FPC the HLT's address, FOPC 0x01, and pc past the HLT. Registers, flags, memory
and output keep their values (R181), and no further step changes anything (log 1). -/
def Obligations.HltResult : Prop :=
  ∀ s : State, ∃ t, exec .hlt s = .next t ∧ t.run = .halted ∧ t.pc = s.pc + 1 ∧
    t.haltRec = { cause := .hlt, fpc := s.pc, fopc := 0x01, fopcV := true, faddr := 0, faddrV := false } ∧
    (∀ r, t.reg r = s.reg r) ∧ t.fl = s.fl ∧ (∀ x, t.mem.read x = s.mem.read x) ∧ t.out = s.out ∧
    step t = .next t

/-! ### Rules of the whole machine -/

/-- R30: no instruction but CMP changes fl, and a step that changes fl runs a CMP; after every CMP exactly one of E, G and L is
set and bits 7:3 are 0; at reset fl is 0, so it is until the first CMP. -/
def Obligations.OnlyCmpWritesFlags : Prop :=
  State.reset.fl = 0 ∧
  (∀ (i : Instr) (s t : State), exec i s = .next t → (∀ a b, i ≠ .cmp a b) → t.fl = s.fl) ∧
  (∀ s t : State, step s = .next t → t.fl ≠ s.fl → ∃ a b rest, decode s.fetchBytes = .ok (.cmp a b, rest)) ∧
  (∀ (a b : Reg) (s t : State), exec (.cmp a b) s = .next t →
    ((t.flagE = true ∧ t.flagG = false ∧ t.flagL = false) ∨ (t.flagE = false ∧ t.flagG = true ∧ t.flagL = false) ∨
      (t.flagE = false ∧ t.flagG = false ∧ t.flagL = true)) ∧ ∀ n, 3 ≤ n → t.fl.getLsbD n = false)

/-- The two register operands of an ALU instruction, CMP left out: A first. -/
def Sys2Proof.Machine.aluOperands : Instr → Option (Reg × Reg)
  | .add a b | .sub a b | .mul a b | .div a b | .and a b | .or a b | .xor a b => some (a, b)
  | .ldi _ _ | .prn _ | .cmp _ _ | .push _ | .pop _ | .call _ | .ret | .jmp _ | .jeq _ | .jne _ | .hlt => none

/-- R128 and R129: each ALU operation is one function of its two register values, the same whichever registers they are in,
A = B included, and its result goes into register A; nothing else of the registers, flags, memory and output changes. CMP
writes fl, one function of the two values, and no register. -/
def Obligations.AluPureAndInPlace : Prop :=
  (∀ o : Op, ∃ f : Byte → Byte → Byte, ∀ (i : Instr) (a b : Reg), i.op = o → aluOperands i = some (a, b) →
    ∀ s t, exec i s = .next t →
      t.reg a = f (s.reg a) (s.reg b) ∧ (∀ r, r ≠ a → t.reg r = s.reg r) ∧ t.fl = s.fl ∧
        (∀ x, t.mem.read x = s.mem.read x) ∧ t.out = s.out) ∧
  (∃ f : Byte → Byte → Byte, ∀ (a b : Reg) (s t : State), exec (.cmp a b) s = .next t →
    t.fl = f (s.reg a) (s.reg b) ∧ (∀ r, t.reg r = s.reg r) ∧ (∀ x, t.mem.read x = s.mem.read x) ∧ t.out = s.out)

/-- R131: compare gives Equal iff a = b, Greater iff a > b, Less iff a < b, so exactly one result for every pair; and a CMP
sets E, G and L for that result, each exactly when it is the one. -/
def Obligations.CompareIsTrichotomy : Prop :=
  (∀ a b : Byte, (compareBytes a b = .equal ↔ a = b) ∧ (compareBytes a b = .greater ↔ a.toNat > b.toNat) ∧
    (compareBytes a b = .less ↔ a.toNat < b.toNat)) ∧
  (∀ (a b : Reg) (s t : State), exec (.cmp a b) s = .next t →
    (t.flagE = true ↔ compareBytes (s.reg a) (s.reg b) = .equal) ∧
    (t.flagG = true ↔ compareBytes (s.reg a) (s.reg b) = .greater) ∧
    (t.flagL = true ↔ compareBytes (s.reg a) (s.reg b) = .less))

/-- R94: what the execute phase returns, and who writes pc. Instructions without controls_pc return Advance and leave pc; JMP,
CALL and RET return Jumped; JEQ and JNE return Jumped exactly when their jump is taken, and else Advance with pc left. -/
def Obligations.ExecutePhaseFlow : Prop :=
  ∀ (op : Byte) (i : Instr) (s t : State) (flow : Flow), phase op i s = .done flow t →
    (i.op.controlsPc = false → flow = .advance ∧ t.pc = s.pc) ∧
    ((∃ a, i = .jmp a) ∨ (∃ a, i = .call a) ∨ i = .ret → flow = .jumped) ∧
    (∀ a, i = .jeq a → (flow = .jumped ↔ s.flagE = true) ∧ (flow = .jumped → t.pc = zext (s.reg a)) ∧
      (flow = .advance → t.pc = s.pc)) ∧
    (∀ a, i = .jne a → (flow = .jumped ↔ s.flagE = false) ∧ (flow = .jumped → t.pc = zext (s.reg a)) ∧
      (flow = .advance → t.pc = s.pc))

/-- R28: pc changes in two ways only: past the instruction, by operand_count + 1, after Advance; or as a control-flow
instruction that returned Jumped wrote it, and that target is at most 255. Where neither happens, the core is not Running
or halts with a fatal condition, and pc stays. -/
def Obligations.PcChangesInTwoWays : Prop :=
  ∀ s t : State, step s = .next t → (t.pc = s.pc ∧ (s.run ≠ .running ∨ t.run = .halted)) ∨
    ∃ (i : Instr) (rest : List Byte) (u : State), decode s.fetchBytes = .ok (i, rest) ∧
      ((phase (defaultOpcodeMap i.op) i s = .done .advance u ∧
          t.pc = s.pc + BitVec.ofNat 9 (operandCount (defaultOpcodeMap i.op) + 1)) ∨
        (phase (defaultOpcodeMap i.op) i s = .done .jumped u ∧ i.op.controlsPc = true ∧ t.pc = u.pc ∧ t.pc.toNat ≤ 255))

/-- R32: the output is empty at reset, PRN appends one byte to it and no other instruction touches it, and the core never
reads it: with another output the same step happens. -/
def Obligations.OutputOnlyAppendedByPrn : Prop :=
  State.reset.out = [] ∧
  (∀ (a : Reg) (s t : State), exec (.prn a) s = .next t → t.out = s.out ++ [s.reg a]) ∧
  (∀ (i : Instr) (s t : State), (∀ a, i ≠ .prn a) → exec i s = .next t → t.out = s.out) ∧
  (∀ (s t : State) (o : List Byte), step s = .next t →
    ∃ more, t.out = s.out ++ more ∧ step { s with out := o } = .next { t with out := o ++ more })

/-- R31 (derived by the spec): no instruction reads G or L. Two states that differ only in fl and agree on its bit 0 take the
same step, up to fl itself. Neither status nor trace shows fl; readout does. -/
def Obligations.GreaterAndLessUnread : Prop :=
  (∀ (s t : State) (f : Byte), f.getLsbD 0 = s.fl.getLsbD 0 → step s = .next t →
    ∃ g, step { s with fl := f } = .next { t with fl := g } ∧ (g = f ∨ g = t.fl)) ∧
  (∀ (s : State) (f : Byte), ({ s with fl := f } : State).trace = s.trace ∧ ({ s with fl := f } : State).status = s.status) ∧
  (∀ s : State, s.run ≠ .running → ∃ v, s.readout = some v ∧ v.flagG = s.flagG ∧ v.flagL = s.flagL)

/-- The register instructions write besides pc and flags: A for LDI, POP and the ALU operations, R7 for the stack
instructions (R26). -/
def Sys2Proof.Machine.writesRegister : Instr → Reg → Bool
  | .ldi a _, r | .add a _, r | .sub a _, r | .mul a _, r | .div a _, r | .and a _, r | .or a _, r | .xor a _, r => r == a
  | .pop a, r => r == a || r == 7
  | .push _, r | .call _, r | .ret, r => r == 7
  | .prn _, _ | .cmp _ _, _ | .jmp _, _ | .jeq _, _ | .jne _, _ | .hlt, _ => false

/-- The one cell an instruction stores to, if any: PUSH and CALL store at SP after the decrement (R56). -/
def Sys2Proof.Machine.storesTo : Instr → State → Option Nat
  | .push _, s | .call _, s => some s.decSp.sp.toNat
  | .ldi _ _, _ | .prn _, _ | .add _ _, _ | .sub _ _, _ | .mul _ _, _ | .div _ _, _ | .and _ _, _ | .or _ _, _
  | .xor _ _, _ | .cmp _ _, _ | .pop _, _ | .ret, _ | .jmp _, _ | .jeq _, _ | .jne _, _ | .hlt, _ => none

/-- The frame of every instruction, R26 and R56 (both derived by the spec): a register not in R26's table stays, and every
byte of memory but the one stored to stays, all of memory where nothing is stored. -/
def Obligations.FrameOfEveryInstruction : Prop :=
  ∀ (i : Instr) (s t : State), exec i s = .next t →
    (∀ r : Reg, writesRegister i r = false → t.reg r = s.reg r) ∧
    (∀ x : Nat, storesTo i s = none → t.mem.read x = s.mem.read x) ∧
    (∀ addr : Nat, storesTo i s = some addr → ∀ x : Nat, x ≠ addr → t.mem.read x = s.mem.read x)

/-- R153 (derived by the spec; D5): PUSH r then POP r', for r and r' below R7, copies r into r' and leaves SP and every other
register as it was. -/
def Obligations.PushThenPop : Prop :=
  ∀ (r q : Reg) (s t u : State), r ≠ 7 → q ≠ 7 → exec (.push r) s = .next t → exec (.pop q) t = .next u →
    u.reg q = s.reg r ∧ u.sp = s.sp ∧ ∀ x, x ≠ q → u.reg x = s.reg x

/-- R160's property (95_test_vectors.md W8; D5, D8): CALL then RET returns to the instruction after the CALL, with SP and
every other register as they were. -/
def Obligations.CallThenRet : Prop :=
  ∀ (a : Reg) (s t u : State), s.pc.toNat ≤ 253 → exec (.call a) s = .next t → exec .ret t = .next u →
    u.pc.toNat = s.pc.toNat + 2 ∧ u.regs = s.regs

/-- Executing a list of instructions one after the other, each answering a next state. -/
def Sys2Proof.Machine.Executes : List Instr → State → State → Prop
  | [], s, t => s = t
  | i :: is, s, t => ∃ u, exec i s = .next u ∧ Executes is u t

/-- R165 (its last sentence is derived by the spec): JEQ and JNE test the most recent CMP, whatever other instructions ran in
between: JEQ is taken iff it found its operands equal, JNE iff it did not. -/
def Obligations.JumpsTestMostRecentCmp : Prop :=
  ∀ (a b r : Reg) (between : List Instr) (s t u : State), (∀ i ∈ between, ∀ x y, i ≠ .cmp x y) →
    exec (.cmp a b) s = .next t → Executes between t u →
    (exec (.jeq r) u = .next { u with pc := if s.reg a = s.reg b then zext (u.reg r) else u.pc + 2 }) ∧
    (exec (.jne r) u = .next { u with pc := if s.reg a = s.reg b then u.pc + 2 else zext (u.reg r) })

/-- The bytes a fetch at pc reads where the cell at addr holds v and every other cell what it holds in s: at most three, those
above 255 left out. -/
def Sys2Proof.Machine.bytesAfterStore (s : State) (addr : Nat) (v : Byte) (pc : Nat) : List Byte :=
  ((List.range' pc 3).filter fun x => decide (x < 256)).map fun x => if x = addr then v else s.mem.read x

/-- The step from t sees the byte v that was stored at SP after the decrement in s: t fetches it with the other bytes of s, runs
what those bytes decode to, and halts with UnknownOpcode where the first of them is no opcode. -/
def Sys2Proof.Machine.SeesStore (s t : State) (v : Byte) : Prop :=
  t.fetchBytes = bytesAfterStore s s.decSp.sp.toNat v t.pc.toNat ∧
  (∀ (j : Instr) (rest : List Byte), decode (bytesAfterStore s s.decSp.sp.toNat v t.pc.toNat) = .ok (j, rest) →
    step t = exec j t) ∧
  (∀ b : Byte, (bytesAfterStore s s.decSp.sp.toNat v t.pc.toNat).head? = some b → defaultOpcodeMap.lookup b = none →
    step t = .next (t.raise (.unknownOpcode t.pc b) (some b)))

/-- R63 and R239 (D17): the byte that PUSH or CALL stores, wherever it lies, is seen by the next fetch, as an opcode or as an
operand. A store onto the instruction's own bytes does not change it: the step is that of the PUSH or CALL fetched before. -/
def Obligations.StoreSeenByNextFetch : Prop :=
  ∀ (s : State) (a : Reg) (rest : List Byte), s.run = .running →
    (decode s.fetchBytes = .ok (.push a, rest) →
      ∃ t, step s = .next t ∧ t.run = .running ∧ t.pc = s.pc + 2 ∧ SeesStore s t (s.decSp.reg a)) ∧
    (decode s.fetchBytes = .ok (.call a, rest) → s.pc.toNat ≤ 253 →
      ∃ t, step s = .next t ∧ t.run = .running ∧ t.pc = zext (s.decSp.reg a) ∧
        SeesStore s t (BitVec.ofNat 8 (s.pc.toNat + 2)))
end

