-- ==== Sys2Proof/Laws/Decode.lean ====
section
/-! SUPPORT. The opcode map, the operand bytes and the raw form: what each answers, and what its answer says. -/

namespace Sys2Proof

theorem Op.mem_all (o : Op) : o ∈ Op.all := by cases o <;> decide

/-- The byte of an operation found is the byte looked up. -/
theorem OpcodeMap.lookup_some {m : OpcodeMap} {b : Byte} {o : Op} (h : m.lookup b = some o) : m o = b := by
  simpa using List.find?_some h

/-- In a map that gives no byte twice, an operation is found by its byte. -/
theorem OpcodeMap.lookup_self {m : OpcodeMap} (h : m.wellFormed = true) (o : Op) : m.lookup (m o) = some o := by
  have hd : (Op.all.map m).Nodup := by
    simp only [OpcodeMap.wellFormed, OpcodeMap.distinct, Bool.and_eq_true, decide_eq_true_eq] at h
    exact h.2
  cases hl : m.lookup (m o) with
  | none =>
    have := List.find?_eq_none.mp hl o (Op.mem_all o)
    simp at this
  | some q =>
    rw [List.inj_on_of_nodup_map hd (Op.mem_all q) (Op.mem_all o) (OpcodeMap.lookup_some hl)]

/-- Bits 7:6 of an allowed map's bytes are the operand count (R72, R81). -/
theorem OpcodeMap.count_of_wellFormed {m : OpcodeMap} (h : m.wellFormed = true) (o : Op) :
    (m o).toNat / 64 = o.format.operandCount := by
  simp only [OpcodeMap.wellFormed, OpcodeMap.countsAgree, Bool.and_eq_true, List.all_eq_true, beq_iff_eq] at h
  exact h.1.1 o (Op.mem_all o)

/-- Bit 4 of an allowed map's bytes marks the operations that control pc (R73, R81). -/
theorem OpcodeMap.control_of_wellFormed {m : OpcodeMap} (h : m.wellFormed = true) (o : Op) :
    (m o).getLsbD 4 = o.controlsPc := by
  simp only [OpcodeMap.wellFormed, OpcodeMap.controlAgrees, Bool.and_eq_true, List.all_eq_true, beq_iff_eq] at h
  exact h.1.2 o (Op.mem_all o)

theorem defaultOpcodeMap_countsAgree : defaultOpcodeMap.countsAgree = true := by decide
theorem defaultOpcodeMap_controlAgrees : defaultOpcodeMap.controlAgrees = true := by decide
theorem defaultOpcodeMap_distinct : defaultOpcodeMap.distinct = true := by decide

theorem defaultOpcodeMap_count (o : Op) : operandCount (defaultOpcodeMap o) = o.format.operandCount := by
  cases o <;> decide

@[simp] theorem reg?_regByte (r : Reg) : reg? (regByte r) = some r := by revert r; decide

theorem reg?_some {b : Byte} {r : Reg} (h : reg? b = some r) : b = regByte r := by
  unfold reg? at h
  split at h
  · cases h
    simp [regByte]
  · cases h

theorem reg?_isSome (b : Byte) : (reg? b).isSome = decide (b.toNat ≤ 7) := by
  unfold reg?
  split <;> simp <;> omega

/-- The raw form of an instruction reads back as the instruction. -/
@[simp] theorem Instr.toInstr?_raw (i : Instr) : i.raw.toInstr? = some i := by
  cases i <;> simp [Instr.raw, Instr.op, Instr.operandBytes, Raw.toInstr?, form0?, form1?, form2?, formImm?]

theorem form0?_some {j i : Instr} {l : List Byte} (h : form0? j l = some i) : l = [] ∧ i = j := by
  cases l <;> simp_all [form0?]

theorem form1?_some {f : Reg → Instr} {i : Instr} {l : List Byte} (h : form1? f l = some i) :
    ∃ a, l = [regByte a] ∧ i = f a := by
  match l, h with
  | [x], h =>
    obtain ⟨a, ha, rfl⟩ := Option.map_eq_some_iff.mp h
    exact ⟨a, by rw [reg?_some ha], rfl⟩

theorem form2?_some {f : Reg → Reg → Instr} {i : Instr} {l : List Byte} (h : form2? f l = some i) :
    ∃ a b, l = [regByte a, regByte b] ∧ i = f a b := by
  match l, h with
  | [x, y], h =>
    obtain ⟨a, ha, h⟩ := Option.bind_eq_some_iff.mp h
    obtain ⟨b, hb, rfl⟩ := Option.map_eq_some_iff.mp h
    exact ⟨a, b, by rw [reg?_some ha, reg?_some hb], rfl⟩

theorem formImm?_some {f : Reg → Byte → Instr} {i : Instr} {l : List Byte} (h : formImm? f l = some i) :
    ∃ a v, l = [regByte a, v] ∧ i = f a v := by
  match l, h with
  | [x, v], h =>
    obtain ⟨a, ha, rfl⟩ := Option.map_eq_some_iff.mp h
    exact ⟨a, v, by rw [reg?_some ha], rfl⟩

/-- Raw bytes that read as an instruction are that instruction's raw form: no bit of them is ignored (R76). -/
theorem Raw.toInstr?_some {r : Raw} {i : Instr} (h : r.toInstr? = some i) : r = i.raw := by
  obtain ⟨o, l⟩ := r
  cases o <;> simp only [Raw.toInstr?] at h <;>
    first
    | (obtain ⟨rfl, rfl⟩ := form0?_some h; rfl)
    | (obtain ⟨a, rfl, rfl⟩ := form1?_some h; rfl)
    | (obtain ⟨a, b, rfl, rfl⟩ := form2?_some h; rfl)
    | (obtain ⟨a, v, rfl, rfl⟩ := formImm?_some h; rfl)

/-- The register check of the decoder is the check of WellFormed.lean (R92). -/
theorem firstBadRegister_none (r : Raw) :
    firstBadRegister r.op.format r.operands = none ↔ r.registersOk = true := by
  simp only [firstBadRegister, Raw.registersOk, List.findSome?_eq_none_iff, List.all_eq_true, Raw.registerOkAt]
  refine forall_congr' fun i => imp_congr_right fun _ => ?_
  cases r.operands[i - 1]? <;> simp

/-- The first bad register is at position 1 or 2, holds more than 7, and is the operand byte there (R92). -/
theorem firstBadRegister_some {f : Format} {l : List Byte} {i : Nat} {b : Byte}
    (h : firstBadRegister f l = some (i, b)) : (i = 1 ∨ i = 2) ∧ l[i - 1]? = some b ∧ 7 < b.toNat := by
  obtain ⟨j, hj, h⟩ := List.exists_of_findSome?_eq_some h
  have hj' : j = 1 ∨ j = 2 := by cases f <;> simp_all [Format.registerPositions]
  cases hl : l[j - 1]? with
  | none => simp [hl] at h
  | some c =>
    simp only [hl] at h
    split at h
    · obtain ⟨rfl, rfl⟩ : j = i ∧ c = b := by simpa using h
      exact ⟨hj', hl, by omega⟩
    · cases h

/-- `toInstr?` answers on the well-formed raw instructions and on no other. -/
theorem Raw.toInstr?_isSome (r : Raw) : r.toInstr?.isSome = r.wellFormed := by
  obtain ⟨o, l⟩ := r
  cases o <;>
    rcases l with _ | ⟨x, _ | ⟨y, _ | ⟨z, l⟩⟩⟩ <;>
    simp [Raw.toInstr?, form0?, form1?, form2?, formImm?, Raw.wellFormed, Raw.countOk, Raw.registersOk, Op.format,
      Format.operandCount, Format.registerPositions, Raw.registerOkAt, reg?_isSome, Option.isSome_map] <;>
    cases hx : reg? x <;> have hx' := reg?_isSome x <;> simp_all [Option.isSome_map, reg?_isSome]

end Sys2Proof
end

