-- ==== Sys2Proof/Laws/Memory.lean ====
section
/-! SUPPORT. Reads and writes of memory, the canonical form, and the memory port. -/

namespace Sys2Proof.Machine

@[simp] theorem Memory.read_nil (a : Nat) : Memory.read [] a = 0 := rfl

theorem Memory.read_cons (c : Host.Cell) (m : Memory) (a : Nat) :
    Memory.read (c :: m) a = if c.1 = a then c.2 else m.read a := by
  by_cases h : c.1 = a <;> simp [Memory.read, h]

theorem Memory.read_erase (m : Memory) (a b : Nat) : (m.erase a).read b = if a = b then 0 else m.read b := by
  induction m with
  | nil => simp [Memory.erase]
  | cons c m ih =>
    simp only [Memory.erase] at ih ⊢
    by_cases h : c.1 = a
    · simp only [List.filter_cons, h, bne_self_eq_false, Bool.false_eq_true, if_false, ih, Memory.read_cons]
      split <;> rfl
    · have hb : (c.1 != a) = true := by simpa using h
      simp only [List.filter_cons, hb, if_true, Memory.read_cons, ih]
      by_cases hcb : c.1 = b
      · simp [hcb, show ¬ a = b from fun e => h (hcb.trans e.symm)]
      · simp [hcb]

theorem Memory.read_insert (m : Memory) (a b : Nat) (v : Byte) (h : ∀ c ∈ m, c.1 ≠ a) :
    (Memory.insert a v m).read b = if a = b then v else m.read b := by
  induction m with
  | nil => simp [Memory.insert, Memory.read_cons]
  | cons c m ih =>
    have hc : c.1 ≠ a := h c (by simp)
    simp only [Memory.insert]
    split
    · rw [Memory.read_cons, ih fun d hd => h d (by simp [hd]), Memory.read_cons]
      by_cases hcb : c.1 = b
      · simp [hcb, show ¬ a = b from fun e => hc (hcb.trans e.symm)]
      · simp [hcb]
    · rw [Memory.read_cons]

/-- Read after write, of any two addresses and in any memory (R53, R60). -/
@[simp] theorem Memory.read_write (m : Memory) (a b : Nat) (v : Byte) :
    (m.write a v).read b = if a = b then v else m.read b := by
  unfold Memory.write
  split
  · rename_i hv
    simp [Memory.read_erase, hv]
  · rw [Memory.read_insert _ _ _ _ (by simp [Memory.erase]), Memory.read_erase]
    split <;> rfl

theorem Memory.mem_insert {m : Memory} {a : Nat} {v : Byte} {c : Host.Cell} :
    c ∈ Memory.insert a v m ↔ c = (a, v) ∨ c ∈ m := by
  induction m with
  | nil => simp [Memory.insert]
  | cons d m ih =>
    simp only [Memory.insert]
    split <;> simp [ih, or_left_comm]

theorem Memory.pairwise_insert {m : Memory} {a : Nat} {v : Byte} (hm : m.Pairwise fun c d => c.1 < d.1)
    (ha : ∀ c ∈ m, c.1 ≠ a) : (Memory.insert a v m).Pairwise fun c d => c.1 < d.1 := by
  induction m with
  | nil => simp [Memory.insert]
  | cons d m ih =>
    obtain ⟨hd, hm'⟩ := List.pairwise_cons.mp hm
    have hda : d.1 ≠ a := ha d (by simp)
    simp only [Memory.insert]
    split
    · refine List.pairwise_cons.mpr ⟨fun c hc => ?_, ih hm' fun c hc => ha c (by simp [hc])⟩
      rcases Memory.mem_insert.mp hc with rfl | hc
      · assumption
      · exact hd c hc
    · refine List.pairwise_cons.mpr ⟨fun c hc => ?_, hm⟩
      rcases List.mem_cons.mp hc with rfl | hc
      · omega
      · exact lt_trans (by omega) (hd c hc)

theorem Memory.wf_iff {m : Memory} :
    m.wf = true ↔ (m.Pairwise fun c d => c.1 < d.1) ∧ ∀ c ∈ m, c.1 < 256 ∧ c.2 ≠ 0 := by
  simp only [Memory.wf, Bool.and_eq_true, decide_eq_true_eq, List.all_eq_true, bne_iff_ne]
  rfl

/-- Every write below 256 keeps the canonical form. -/
theorem Memory.wf_write {m : Memory} {a : Nat} (h : m.wf = true) (ha : a < 256) (v : Byte) : (m.write a v).wf = true := by
  obtain ⟨hp, hc⟩ := Memory.wf_iff.mp h
  have hpe : (m.erase a).Pairwise fun c d => c.1 < d.1 := hp.filter _
  have hce : ∀ c ∈ m.erase a, (c.1 < 256 ∧ c.2 ≠ 0) ∧ c.1 ≠ a := fun c h => by
    obtain ⟨h1, h2⟩ := List.mem_filter.mp h
    exact ⟨hc c h1, by simpa using h2⟩
  refine Memory.wf_iff.mpr ?_
  unfold Memory.write
  split
  · exact ⟨hpe, fun c h => (hce c h).1⟩
  · rename_i hv
    refine ⟨Memory.pairwise_insert hpe fun c h => (hce c h).2, fun c h => ?_⟩
    rcases Memory.mem_insert.mp h with rfl | h
    · exact ⟨ha, hv⟩
    · exact (hce c h).1

/-- So does storing a run of bytes. -/
theorem Memory.wf_writeMany {m : Memory} (h : m.wf = true) (a : Nat) (bs : List Byte) : (m.writeMany a bs).wf = true := by
  induction bs generalizing m a with
  | nil => exact h
  | cons b bs ih =>
    simp only [Memory.writeMany]
    split
    · rename_i ha
      exact ih (Memory.wf_write h ha b) _
    · exact h

/-- In canonical form, memories that read the same are the same list. -/
theorem Memory.ext_read {m n : Memory} (hm : m.wf = true) (hn : n.wf = true) (h : ∀ a, m.read a = n.read a) : m = n := by
  have key : ∀ {m n : Memory}, m.wf = true → n.wf = true → (∀ a, m.read a = n.read a) → ∀ c ∈ m, c ∈ n := by
    intro m n hm hn h c hc
    obtain ⟨hp, hz⟩ := Memory.wf_iff.mp hm
    have hr : m.read c.1 = c.2 := by
      clear h hm hz
      induction m with
      | nil => simp at hc
      | cons d m ih =>
        obtain ⟨hd, hp'⟩ := List.pairwise_cons.mp hp
        rw [Memory.read_cons]
        rcases List.mem_cons.mp hc with rfl | hc
        · simp
        · rw [if_neg (Nat.ne_of_lt (hd c hc)), ih hc hp']
    have hnz : n.read c.1 ≠ 0 := by rw [← h, hr]; exact (hz c hc).2
    unfold Memory.read at hnz
    cases hf : n.find? fun d => d.1 == c.1 with
    | none => simp [hf] at hnz
    | some d =>
      have hd : d.1 = c.1 := by simpa using List.find?_some hf
      have hv : n.read c.1 = d.2 := by simp [Memory.read, hf]
      have : d = c := Prod.ext hd (by rw [← hv, ← h, hr])
      exact this ▸ List.mem_of_find?_eq_some hf
  have nodup : ∀ {m : Memory}, m.wf = true → m.Nodup := fun hm =>
    ((Memory.wf_iff.mp hm).1).imp fun h e => by simp [e] at h
  have hperm : m.Perm n :=
    (List.perm_ext_iff_of_nodup (nodup hm) (nodup hn)).mpr fun c =>
      ⟨key hm hn h c, key hn hm (fun a => (h a).symm) c⟩
  exact hperm.eq_of_pairwise (le := fun c d : Host.Cell => c.1 < d.1)
    (fun a b _ _ h1 h2 => absurd h1 (Nat.lt_asymm h2)) (Memory.wf_iff.mp hm).1 (Memory.wf_iff.mp hn).1

theorem Memory.portRead_of_le {m : Memory} {a : Addr} (h : a.toNat ≤ 255) : m.portRead a = .ok (m.read a.toNat) :=
  if_neg (by omega)

theorem Memory.portRead_of_gt {m : Memory} {a : Addr} (h : 255 < a.toNat) :
    m.portRead a = .error (.outOfBoundsAccess a) :=
  if_pos h

theorem Memory.portWrite_of_le {m : Memory} {a : Addr} (h : a.toNat ≤ 255) (v : Byte) :
    m.portWrite a v = .ok (m.write a.toNat v) :=
  if_neg (by omega)

@[simp] theorem zext_toNat (b : Byte) : (zext b).toNat = b.toNat := by
  have := b.isLt
  simp only [zext, BitVec.toNat_setWidth]
  omega

/-- A byte address is always in memory, so a read through the port there never fails (R52). -/
@[simp] theorem Memory.portRead_zext (m : Memory) (b : Byte) : m.portRead (zext b) = .ok (m.read b.toNat) := by
  rw [Memory.portRead_of_le (by rw [zext_toNat]; have := b.isLt; omega), zext_toNat]

/-- Nor does a write (R52). -/
@[simp] theorem Memory.portWrite_zext (m : Memory) (b v : Byte) : m.portWrite (zext b) v = .ok (m.write b.toNat v) := by
  rw [Memory.portWrite_of_le (by rw [zext_toNat]; have := b.isLt; omega), zext_toNat]

end Sys2Proof.Machine
end

