-- ==== Sys2Proof/Laws/State.lean ====
section
/-! SUPPORT. One lemma for each field under each update of State, so that no proof unfolds a record update. -/

namespace Sys2Proof.Machine

variable (s : State)

@[simp] theorem State.setPc_regs (a : Addr) : (s.setPc a).regs = s.regs := rfl
@[simp] theorem State.setPc_pc (a : Addr) : (s.setPc a).pc = a := rfl
@[simp] theorem State.setPc_fl (a : Addr) : (s.setPc a).fl = s.fl := rfl
@[simp] theorem State.setPc_mem (a : Addr) : (s.setPc a).mem = s.mem := rfl
@[simp] theorem State.setPc_run (a : Addr) : (s.setPc a).run = s.run := rfl
@[simp] theorem State.setPc_haltRec (a : Addr) : (s.setPc a).haltRec = s.haltRec := rfl
@[simp] theorem State.setPc_out (a : Addr) : (s.setPc a).out = s.out := rfl

@[simp] theorem State.setMem_regs (m : Memory) : (s.setMem m).regs = s.regs := rfl
@[simp] theorem State.setMem_pc (m : Memory) : (s.setMem m).pc = s.pc := rfl
@[simp] theorem State.setMem_fl (m : Memory) : (s.setMem m).fl = s.fl := rfl
@[simp] theorem State.setMem_mem (m : Memory) : (s.setMem m).mem = m := rfl
@[simp] theorem State.setMem_run (m : Memory) : (s.setMem m).run = s.run := rfl
@[simp] theorem State.setMem_haltRec (m : Memory) : (s.setMem m).haltRec = s.haltRec := rfl
@[simp] theorem State.setMem_out (m : Memory) : (s.setMem m).out = s.out := rfl

@[simp] theorem State.haltWith_regs (h : HaltRec) : (s.haltWith h).regs = s.regs := rfl
@[simp] theorem State.haltWith_pc (h : HaltRec) : (s.haltWith h).pc = s.pc := rfl
@[simp] theorem State.haltWith_fl (h : HaltRec) : (s.haltWith h).fl = s.fl := rfl
@[simp] theorem State.haltWith_mem (h : HaltRec) : (s.haltWith h).mem = s.mem := rfl
@[simp] theorem State.haltWith_run (h : HaltRec) : (s.haltWith h).run = .halted := rfl
@[simp] theorem State.haltWith_haltRec (h : HaltRec) : (s.haltWith h).haltRec = h := rfl
@[simp] theorem State.haltWith_out (h : HaltRec) : (s.haltWith h).out = s.out := rfl

@[simp] theorem State.setReg_regs (r : Reg) (v : Byte) : (s.setReg r v).regs = s.regs.set r v := rfl
@[simp] theorem State.setReg_pc (r : Reg) (v : Byte) : (s.setReg r v).pc = s.pc := rfl
@[simp] theorem State.setReg_fl (r : Reg) (v : Byte) : (s.setReg r v).fl = s.fl := rfl
@[simp] theorem State.setReg_mem (r : Reg) (v : Byte) : (s.setReg r v).mem = s.mem := rfl
@[simp] theorem State.setReg_run (r : Reg) (v : Byte) : (s.setReg r v).run = s.run := rfl
@[simp] theorem State.setReg_haltRec (r : Reg) (v : Byte) : (s.setReg r v).haltRec = s.haltRec := rfl
@[simp] theorem State.setReg_out (r : Reg) (v : Byte) : (s.setReg r v).out = s.out := rfl

@[simp] theorem State.decSp_regs : (s.decSp).regs = s.regs.set Config.spIndex (s.sp - 1) := rfl
@[simp] theorem State.decSp_pc : (s.decSp).pc = s.pc := rfl
@[simp] theorem State.decSp_fl : (s.decSp).fl = s.fl := rfl
@[simp] theorem State.decSp_mem : (s.decSp).mem = s.mem := rfl
@[simp] theorem State.decSp_run : (s.decSp).run = s.run := rfl
@[simp] theorem State.decSp_haltRec : (s.decSp).haltRec = s.haltRec := rfl
@[simp] theorem State.decSp_out : (s.decSp).out = s.out := rfl

@[simp] theorem State.incSp_regs : (s.incSp).regs = s.regs.set Config.spIndex (s.sp + 1) := rfl
@[simp] theorem State.incSp_pc : (s.incSp).pc = s.pc := rfl
@[simp] theorem State.incSp_fl : (s.incSp).fl = s.fl := rfl
@[simp] theorem State.incSp_mem : (s.incSp).mem = s.mem := rfl
@[simp] theorem State.incSp_run : (s.incSp).run = s.run := rfl
@[simp] theorem State.incSp_haltRec : (s.incSp).haltRec = s.haltRec := rfl
@[simp] theorem State.incSp_out : (s.incSp).out = s.out := rfl

@[simp] theorem State.emit_regs (v : Byte) : (s.emit v).regs = s.regs := rfl
@[simp] theorem State.emit_pc (v : Byte) : (s.emit v).pc = s.pc := rfl
@[simp] theorem State.emit_fl (v : Byte) : (s.emit v).fl = s.fl := rfl
@[simp] theorem State.emit_mem (v : Byte) : (s.emit v).mem = s.mem := rfl
@[simp] theorem State.emit_run (v : Byte) : (s.emit v).run = s.run := rfl
@[simp] theorem State.emit_haltRec (v : Byte) : (s.emit v).haltRec = s.haltRec := rfl
@[simp] theorem State.emit_out (v : Byte) : (s.emit v).out = s.out ++ [v] := rfl

@[simp] theorem State.setFlags_regs (f : FlagState) : (s.setFlags f).regs = s.regs := rfl
@[simp] theorem State.setFlags_pc (f : FlagState) : (s.setFlags f).pc = s.pc := rfl
@[simp] theorem State.setFlags_fl (f : FlagState) : (s.setFlags f).fl = f.toByte := rfl
@[simp] theorem State.setFlags_mem (f : FlagState) : (s.setFlags f).mem = s.mem := rfl
@[simp] theorem State.setFlags_run (f : FlagState) : (s.setFlags f).run = s.run := rfl
@[simp] theorem State.setFlags_haltRec (f : FlagState) : (s.setFlags f).haltRec = s.haltRec := rfl
@[simp] theorem State.setFlags_out (f : FlagState) : (s.setFlags f).out = s.out := rfl

@[simp] theorem State.raise_regs (f : Fatal) (op : Option Byte) : (s.raise f op).regs = s.regs := rfl
@[simp] theorem State.raise_pc (f : Fatal) (op : Option Byte) : (s.raise f op).pc = s.pc := rfl
@[simp] theorem State.raise_fl (f : Fatal) (op : Option Byte) : (s.raise f op).fl = s.fl := rfl
@[simp] theorem State.raise_mem (f : Fatal) (op : Option Byte) : (s.raise f op).mem = s.mem := rfl
@[simp] theorem State.raise_run (f : Fatal) (op : Option Byte) : (s.raise f op).run = .halted := rfl
@[simp] theorem State.raise_haltRec (f : Fatal) (op : Option Byte) : (s.raise f op).haltRec = ⟨f.cause, s.pc, op.getD 0, op.isSome, f.addr?.getD 0, f.addr?.isSome⟩ := rfl
@[simp] theorem State.raise_out (f : Fatal) (op : Option Byte) : (s.raise f op).out = s.out := rfl

end Sys2Proof.Machine
end

