-- ==== Sys2Proof/Laws/Registers.lean ====
section
/-! SUPPORT. Registers, the stack pointer and the stack accesses. -/

namespace Sys2Proof.Machine

variable (s : State)

theorem State.reg_mk_regs (v : Vector Byte 8) (r : Reg) : ({ s with regs := v } : State).reg r = v[r] := rfl

/-- Register after register write: the register file is eight independent cells (R21). -/
@[simp] theorem State.reg_setReg (r q : Reg) (v : Byte) : (s.setReg r v).reg q = if r = q then v else s.reg q := by
  simp only [State.reg, State.setReg, Fin.getElem_fin, Vector.getElem_set, Fin.ext_iff]

@[simp] theorem State.reg_setPc (a : Addr) (q : Reg) : (s.setPc a).reg q = s.reg q := rfl
@[simp] theorem State.reg_setMem (m : Memory) (q : Reg) : (s.setMem m).reg q = s.reg q := rfl
@[simp] theorem State.reg_haltWith (h : HaltRec) (q : Reg) : (s.haltWith h).reg q = s.reg q := rfl
@[simp] theorem State.reg_emit (v : Byte) (q : Reg) : (s.emit v).reg q = s.reg q := rfl
@[simp] theorem State.reg_setFlags (f : FlagState) (q : Reg) : (s.setFlags f).reg q = s.reg q := rfl
@[simp] theorem State.reg_raise (f : Fatal) (op : Option Byte) (q : Reg) : (s.raise f op).reg q = s.reg q := rfl

/-- SP after a register write: the write's value when it named R7 (R22, R23). -/
@[simp] theorem State.sp_setReg (r : Reg) (v : Byte) : (s.setReg r v).sp = if r = 7 then v else s.sp :=
  State.reg_setReg s r 7 v

@[simp] theorem State.sp_setPc (a : Addr) : (s.setPc a).sp = s.sp := rfl
@[simp] theorem State.sp_setMem (m : Memory) : (s.setMem m).sp = s.sp := rfl

@[simp] theorem State.sp_decSp : s.decSp.sp = s.sp - 1 := by simp [State.decSp, Config.spIndex]

@[simp] theorem State.sp_incSp : s.incSp.sp = s.sp + 1 := by simp [State.incSp, Config.spIndex]

theorem State.reg_decSp (q : Reg) : s.decSp.reg q = if q = 7 then s.sp - 1 else s.reg q := by
  simp [State.decSp, Config.spIndex, eq_comm]

theorem State.reg_incSp (q : Reg) : s.incSp.reg q = if q = 7 then s.sp + 1 else s.reg q := by
  simp [State.incSp, Config.spIndex, eq_comm]

/-- A stack store never fails: it writes the byte SP names (R52, R150). -/
@[simp] theorem State.storeAtSp_eq (v : Byte) : s.storeAtSp v = .ok (s.setMem (s.mem.write s.sp.toNat v)) := by
  simp [State.storeAtSp]

/-- A stack load never fails: it reads the byte SP names (R52, R151). -/
@[simp] theorem State.loadAtSp_eq : s.loadAtSp = .ok (s.mem.read s.sp.toNat) := by
  simp [State.loadAtSp]

end Sys2Proof.Machine
end

