-- ==== Sys2Proof/Laws/Ops.lean ====
section
/-! SUPPORT. The end of a step, and the bytes a fetch reads: what each can answer. -/

namespace Sys2Proof.Machine

/-- A raised condition is taken in the state the step began in (R207). -/
@[simp] theorem finish_raised (op : Byte) (s : State) (f : Fatal) : finish op s (.raised f) = .next (s.raise f (some op)) :=
  rfl

/-- Advance: pc moves past the instruction (R93). -/
@[simp] theorem finish_advance (op : Byte) (s t : State) :
    finish op s (.done .advance t) = .next (t.setPc (s.pc + BitVec.ofNat 9 (instrLength op))) := by
  simp [finish]

/-- Jumped, by an instruction that controls pc: pc stays as the instruction wrote it (R93). -/
theorem finish_jumped {op : Byte} (h : controlsPc op = true) (s t : State) : finish op s (.done .jumped t) = .next t := by
  simp [finish, h]

/-- Every end of a step is a next state. -/
theorem finish_next (op : Byte) (s : State) (ph : Phase) : ∃ t, finish op s ph = .next t := by
  cases ph <;> exact ⟨_, rfl⟩

/-- All that the end of a step can be (R93, R207): the raised condition taken, pc moved past the instruction, or the phase's
own state after a jump. -/
theorem finish_cases {op : Byte} {s t : State} {ph : Phase} (h : finish op s ph = .next t) :
    (∃ f, ph = .raised f ∧ t = s.raise f (some op)) ∨
    (∃ flow u, ph = .done flow u ∧ (flow = .advance ∨ controlsPc op = false) ∧
      t = u.setPc (s.pc + BitVec.ofNat 9 (instrLength op))) ∨
    (∃ u, ph = .done .jumped u ∧ controlsPc op = true ∧ t = u) := by
  cases ph with
  | raised f => exact .inl ⟨f, rfl, by simpa using h.symm⟩
  | done flow u =>
    simp only [finish, Host.Outcome.next.injEq] at h
    split at h
    · rename_i hc
      exact .inr (.inl ⟨flow, u, rfl, hc.symm, h.symm⟩)
    · rename_i hc
      simp only [not_or, Bool.not_eq_false] at hc
      cases flow
      · exact absurd rfl hc.2
      · exact .inr (.inr ⟨u, rfl, hc.1, h.symm⟩)

theorem Memory.window_succ (m : Memory) (a n : Nat) :
    m.window a (n + 1) = if a < 256 then m.read a :: m.window (a + 1) n else [] := rfl

/-- The address after one at most 256 does not wrap (R87: a 9-bit add, no wrap). -/
theorem addr_succ_toNat {a : Addr} (h : a.toNat ≤ 256) : (a + 1).toNat = a.toNat + 1 := by
  rw [BitVec.toNat_add, show (1 : Addr).toNat = 1 from rfl]
  omega

theorem Memory.window_length (m : Memory) (a n : Nat) : (m.window a n).length = min n (256 - a) := by
  induction n generalizing a with
  | zero => simp [Memory.window]
  | succ n ih =>
    rw [Memory.window_succ]
    split
    · simp only [List.length_cons, ih]
      omega
    · simp only [List.length_nil]
      omega

/-- The k-th byte of a window is the cell at its address (R54). -/
theorem Memory.window_get {m : Memory} {a n k : Nat} (hk : k < n) (ha : a + k < 256) :
    (m.window a n)[k]? = some (m.read (a + k)) := by
  induction n generalizing a k with
  | zero => omega
  | succ n ih =>
    rw [Memory.window_succ, if_pos (by omega)]
    cases k with
    | zero => rfl
    | succ k =>
      rw [List.getElem?_cons_succ, ih (by omega) (by omega)]
      congr 2
      omega

theorem Memory.window_take (m : Memory) (a : Nat) {k n : Nat} (h : k ≤ n) : (m.window a n).take k = m.window a k := by
  induction n generalizing a k with
  | zero => simp [show k = 0 by omega, Memory.window]
  | succ n ih =>
    cases k with
    | zero => simp [Memory.window]
    | succ k =>
      simp only [Memory.window_succ]
      split
      · rw [List.take_succ_cons, ih _ (by omega)]
      · rfl

/-- Reads that all lie in memory give the window (R91). -/
theorem Memory.portReadMany_ok (m : Memory) {a : Addr} {n : Nat} (h : a.toNat + n ≤ 256) :
    m.portReadMany a n = .ok (m.window a.toNat n) := by
  induction n generalizing a with
  | zero => rfl
  | succ n ih =>
    have ha := addr_succ_toNat (a := a) (by omega)
    rw [Memory.portReadMany, Memory.portRead_of_le (by omega)]
    by_cases hn : n = 0
    · subst hn
      rw [Memory.window_succ, if_pos (by omega)]
      rfl
    · rw [ih (by omega), ha, Memory.window_succ, if_pos (by omega)]

/-- Reads that leave memory fail at 256, the first address outside it (R52, R91). -/
theorem Memory.portReadMany_error (m : Memory) {a : Addr} {n : Nat} (ha : a.toNat ≤ 256) (h : 256 < a.toNat + n) :
    m.portReadMany a n = .error (.outOfBoundsAccess 256) := by
  induction n generalizing a with
  | zero => omega
  | succ n ih =>
    rw [Memory.portReadMany]
    by_cases h6 : a.toNat = 256
    · rw [Memory.portRead_of_gt (by omega)]
      have : a = 256 := BitVec.eq_of_toNat_eq (by simpa using h6)
      rw [this]
    · have ha1 := addr_succ_toNat ha
      rw [Memory.portRead_of_le (by omega), ih (by omega) (by omega)]

end Sys2Proof.Machine
end

