-- ==== Sys2Proof/Laws/PerInstr.lean ====
section
/-! SUPPORT. One lemma for each instruction: its raw form passes the checks of WellFormed.lean, its opcode byte is its row's
byte, and its length is its opcode byte's operand count plus 1 (R74, R75, R80, R92). -/

namespace Sys2Proof.Laws.EncodesWellFormed

def Statement (i : Instr) : Prop :=
  i.raw.wellFormed = true ∧ (encode i).head? = some (defaultOpcodeMap i.op) ∧
    (encode i).length = instrLength (defaultOpcodeMap i.op)

/-- All three hold of any instruction whose operand count is its row's. -/
theorem of_count {i : Instr} (h : i.operandBytes.length = i.op.format.operandCount) : Statement i :=
  ⟨by rw [← Raw.toInstr?_isSome, Instr.toInstr?_raw]; rfl, rfl,
    by rw [encode, encodeWith, List.length_cons, h, instrLength, defaultOpcodeMap_count]⟩

theorem ldi (a : Reg) (imm : Byte) : Statement (.ldi a imm) := of_count rfl
theorem prn (a : Reg) : Statement (.prn a) := of_count rfl
theorem add (a b : Reg) : Statement (.add a b) := of_count rfl
theorem sub (a b : Reg) : Statement (.sub a b) := of_count rfl
theorem mul (a b : Reg) : Statement (.mul a b) := of_count rfl
theorem div (a b : Reg) : Statement (.div a b) := of_count rfl
theorem and (a b : Reg) : Statement (.and a b) := of_count rfl
theorem or (a b : Reg) : Statement (.or a b) := of_count rfl
theorem xor (a b : Reg) : Statement (.xor a b) := of_count rfl
theorem cmp (a b : Reg) : Statement (.cmp a b) := of_count rfl
theorem push (a : Reg) : Statement (.push a) := of_count rfl
theorem pop (a : Reg) : Statement (.pop a) := of_count rfl
theorem call (a : Reg) : Statement (.call a) := of_count rfl
theorem ret : Statement .ret := of_count rfl
theorem jmp (a : Reg) : Statement (.jmp a) := of_count rfl
theorem jeq (a : Reg) : Statement (.jeq a) := of_count rfl
theorem jne (a : Reg) : Statement (.jne a) := of_count rfl
theorem hlt : Statement .hlt := of_count rfl

end Sys2Proof.Laws.EncodesWellFormed
end

