-- ==== Sys2Proof/Laws/Step.lean ====
section
/-! SUPPORT. Said once: everything a step can do (30_encoding.md R86 to R95, 60_exceptions.md R206). -/

namespace Sys2Proof.Machine

/-- The operand bytes a step reads for an opcode byte, where all of them are in memory (R91). -/
def operandsRead (p : Params) (s : State) (op : Byte) : List Byte :=
  if p.eagerOperandFetch then (s.mem.window (s.pc.toNat + 1) 2).take (operandCount op)
  else s.mem.window (s.pc.toNat + 1) (operandCount op)

/-- The answers of a Running core's step, each with what leads to it, in R206's order. -/
inductive StepAnswer (p : Params) (run : Byte → Instr → State → Outcome) (s : State) : Outcome → Prop where
  | fetchOut : 255 < s.pc.toNat → StepAnswer p run s (.next (s.raise (.outOfBoundsAccess s.pc) none))
  | eagerOut : s.pc.toNat ≤ 255 → p.eagerOperandFetch = true → 253 < s.pc.toNat →
      StepAnswer p run s (.next (s.raise (.outOfBoundsAccess 256) (some (s.mem.read s.pc.toNat))))
  | unknown : s.pc.toNat ≤ 255 → (p.eagerOperandFetch = true → s.pc.toNat ≤ 253) →
      p.opcodeMap.lookup (s.mem.read s.pc.toNat) = none →
      StepAnswer p run s
        (.next (s.raise (.unknownOpcode s.pc (s.mem.read s.pc.toNat)) (some (s.mem.read s.pc.toNat))))
  | operandOut (o : Op) : s.pc.toNat ≤ 255 → p.eagerOperandFetch = false →
      p.opcodeMap.lookup (s.mem.read s.pc.toNat) = some o →
      255 < s.pc.toNat + operandCount (s.mem.read s.pc.toNat) →
      StepAnswer p run s (.next (s.raise (.outOfBoundsAccess 256) (some (s.mem.read s.pc.toNat))))
  | badRegister (o : Op) (i : Nat) (b : Byte) : s.pc.toNat ≤ 255 → (p.eagerOperandFetch = true → s.pc.toNat ≤ 253) →
      (p.eagerOperandFetch = false → s.pc.toNat + operandCount (s.mem.read s.pc.toNat) ≤ 255) →
      p.opcodeMap.lookup (s.mem.read s.pc.toNat) = some o →
      firstBadRegister o.format (operandsRead p s (s.mem.read s.pc.toNat)) = some (i, b) →
      StepAnswer p run s
        (.next (s.raise (.invalidRegister (s.pc + BitVec.ofNat 9 i) b) (some (s.mem.read s.pc.toNat))))
  | badMap (o : Op) : s.pc.toNat ≤ 255 → (p.eagerOperandFetch = true → s.pc.toNat ≤ 253) →
      (p.eagerOperandFetch = false → s.pc.toNat + operandCount (s.mem.read s.pc.toNat) ≤ 255) →
      p.opcodeMap.lookup (s.mem.read s.pc.toNat) = some o →
      (operandsRead p s (s.mem.read s.pc.toNat)).length ≠ o.format.operandCount →
      StepAnswer p run s (.refused .opcodeMapInvalid)
  | runs (i : Instr) : s.pc.toNat ≤ 255 → (p.eagerOperandFetch = true → s.pc.toNat ≤ 253) →
      (p.eagerOperandFetch = false → s.pc.toNat + operandCount (s.mem.read s.pc.toNat) ≤ 255) →
      p.opcodeMap.lookup (s.mem.read s.pc.toNat) = some i.op →
      operandsRead p s (s.mem.read s.pc.toNat) = i.operandBytes →
      StepAnswer p run s (run (s.mem.read s.pc.toNat) i s)

/-- Under a map that R8 allows a step reads the operand bytes its operation has, so `badMap` never arises. -/
theorem operandsRead_length {p : Params} {s : State} {o : Op} (hw : p.opcodeMap.wellFormed = true)
    (he : p.eagerOperandFetch = true → s.pc.toNat ≤ 253)
    (hin : p.eagerOperandFetch = false → s.pc.toNat + operandCount (s.mem.read s.pc.toNat) ≤ 255)
    (hl : p.opcodeMap.lookup (s.mem.read s.pc.toNat) = some o) :
    (operandsRead p s (s.mem.read s.pc.toNat)).length = o.format.operandCount := by
  have hc : operandCount (s.mem.read s.pc.toNat) = o.format.operandCount := by
    rw [← OpcodeMap.lookup_some hl]
    exact OpcodeMap.count_of_wellFormed hw o
  have h2 : o.format.operandCount ≤ 2 := by cases o <;> decide
  unfold operandsRead
  cases hf : p.eagerOperandFetch with
  | true =>
    have := he hf
    simp only [if_true, List.length_take, Memory.window_length]
    omega
  | false =>
    have := hin hf
    simp only [Bool.false_eq_true, if_false, Memory.window_length]
    omega

theorem operandsExecute_answer (p : Params) (run : Byte → Instr → State → Outcome) (s : State) (o : Op)
    (h : s.pc.toNat ≤ 255) (he : p.eagerOperandFetch = true → s.pc.toNat ≤ 253)
    (hl : p.opcodeMap.lookup (s.mem.read s.pc.toNat) = some o) :
    StepAnswer p run s
      (operandsExecute p run s (s.mem.read s.pc.toNat) o (s.mem.window (s.pc.toNat + 1) 2)) := by
  have ha := addr_succ_toNat (a := s.pc) (by omega)
  by_cases hout : p.eagerOperandFetch = false ∧ 255 < s.pc.toNat + operandCount (s.mem.read s.pc.toNat)
  · obtain ⟨hf, hout⟩ := hout
    have herr := s.mem.portReadMany_error (a := s.pc + 1) (n := operandCount (s.mem.read s.pc.toNat)) (by omega) (by omega)
    simp only [operandsExecute, hf, Bool.false_eq_true, if_false, herr]
    exact .operandOut o h hf hl hout
  · have hin : p.eagerOperandFetch = false → s.pc.toNat + operandCount (s.mem.read s.pc.toNat) ≤ 255 := fun hf => by
      by_contra hc
      exact hout ⟨hf, by omega⟩
    have hops : (if p.eagerOperandFetch then
        .ok ((s.mem.window (s.pc.toNat + 1) 2).take (operandCount (s.mem.read s.pc.toNat)))
        else s.mem.portReadMany (s.pc + 1) (operandCount (s.mem.read s.pc.toNat)) : Except Fatal (List Byte)) =
        .ok (operandsRead p s (s.mem.read s.pc.toNat)) := by
      cases hf : p.eagerOperandFetch with
      | true => simp [operandsRead, hf]
      | false =>
        have := hin hf
        simp only [operandsRead, hf, Bool.false_eq_true, if_false]
        rw [Memory.portReadMany_ok _ (by omega), ha]
    simp only [operandsExecute, hops]
    cases hb : firstBadRegister o.format (operandsRead p s (s.mem.read s.pc.toNat)) with
    | some ib => exact .badRegister o ib.1 ib.2 h he hin hl hb
    | none =>
      cases hi : (Raw.mk o (operandsRead p s (s.mem.read s.pc.toNat))).toInstr? with
      | some i =>
        obtain ⟨rfl, hr⟩ := Raw.mk.inj (Raw.toInstr?_some hi)
        exact .runs i h he hin hl hr
      | none =>
        refine .badMap o h he hin hl fun hlen => ?_
        have hw : (Raw.mk o (operandsRead p s (s.mem.read s.pc.toNat))).wellFormed = true := by
          simp only [Raw.wellFormed, Raw.countOk, hlen, beq_self_eq_true, Bool.true_and]
          exact (firstBadRegister_none ⟨o, _⟩).mp hb
        rw [← Raw.toInstr?_isSome, hi] at hw
        cases hw

/-- The operand fetch of the default form ignores what the eager form latched. -/
theorem operandsExecute_lazy {p : Params} (hf : p.eagerOperandFetch = false) (run : Byte → Instr → State → Outcome)
    (s : State) (op : Byte) (o : Op) (l l' : List Byte) :
    operandsExecute p run s op o l = operandsExecute p run s op o l' := by
  simp [operandsExecute, hf]

/-- Everything a Running core's step can answer. -/
theorem fetchExecute_answer (p : Params) (run : Byte → Instr → State → Outcome) (s : State) :
    StepAnswer p run s (fetchExecute p run s) := by
  by_cases h : 255 < s.pc.toNat
  · simp only [fetchExecute, Memory.portRead_of_gt h]
    exact .fetchOut h
  · have h : s.pc.toNat ≤ 255 := by omega
    have ha := addr_succ_toNat (a := s.pc) (by omega)
    simp only [fetchExecute, Memory.portRead_of_le h]
    cases hf : p.eagerOperandFetch with
    | false =>
      simp only [Bool.false_eq_true, if_false, decodeExecute]
      cases hl : p.opcodeMap.lookup (s.mem.read s.pc.toNat) with
      | none => exact .unknown h (by simp [hf]) hl
      | some o =>
        simp only [operandsExecute_lazy hf run s _ o [] (s.mem.window (s.pc.toNat + 1) 2)]
        exact operandsExecute_answer p run s o h (by simp [hf]) hl
    | true =>
      simp only [if_true]
      by_cases h3 : s.pc.toNat ≤ 253
      · rw [Memory.portReadMany_ok _ (by omega), ha]
        simp only [decodeExecute]
        cases hl : p.opcodeMap.lookup (s.mem.read s.pc.toNat) with
        | none => exact .unknown h (fun _ => h3) hl
        | some o => exact operandsExecute_answer p run s o h (fun _ => h3) hl
      · rw [Memory.portReadMany_error _ (by omega) (by omega)]
        exact .eagerOut h hf (by omega)

/-- In Ready and Halted a step answers the state itself (log 1). -/
theorem cycle_of_not_running {s : State} (h : s.run ≠ .running) (p : Params) (run : Byte → Instr → State → Outcome) :
    cycle p run s = .next s := by
  unfold cycle
  cases hr : s.run <;> simp_all

theorem cycle_of_running {s : State} (h : s.run = .running) (p : Params) (run : Byte → Instr → State → Outcome) :
    cycle p run s = fetchExecute p run s := by
  simp [cycle, h]

end Sys2Proof.Machine
end

