-- ==== Sys2Proof/Tests/Slice0.lean ====
section
/-! SUPPORT. Tests. Expected values are those of spec/95_test_vectors.md (a vector's name in brackets) or worked out by hand
from the rule named. W_ theorems show, for each obligation with hypotheses, a state and operands that meet them all. -/

namespace Sys2Proof.Tests

open Sys2Proof Sys2Proof.Machine

/-! ### Helpers -/

/-- A Running core, all else as reset leaves it, with these bytes at pc. -/
def loadedAt (pc : Nat) (bytes : List Byte) : State :=
  { State.reset with pc := BitVec.ofNat 9 pc, mem := Memory.writeMany [] pc bytes, run := .running }

/-- The next state, if the step answers one. -/
def next? : Outcome → Option State
  | .next t => some t
  | .fault _ => none
  | .refused _ => none

/-- A field of the state after one step. -/
def after {α : Type} (s : State) (f : State → α) : Option α := (next? (step s)).map f

/-- The same for a core with eager operand fetch. -/
def afterEager {α : Type} (s : State) (f : State → α) : Option α :=
  (next? (stepWith ⟨defaultOpcodeMap, true⟩ s)).map f

/-! ### WellFormed: an ill-formed term for each check -/

theorem test_wf_accepts : (Raw.mk .add [7, 0]).wellFormed = true := by decide
theorem test_wf_count_short : (Raw.mk .add [7]).wellFormed = false := by decide
theorem test_wf_count_long : (Raw.mk .hlt [0]).wellFormed = false := by decide
theorem test_wf_register_a : (Raw.mk .ldi [8, 0]).wellFormed = false := by decide
theorem test_wf_register_b : (Raw.mk .cmp [7, 8]).wellFormed = false := by decide
theorem test_wf_immediate_unchecked : (Raw.mk .ldi [7, 255]).wellFormed = true := by decide

/-- A map that gives RET's byte a one-operand count. -/
def badCountMap : OpcodeMap := fun o => if o = .ret then 0x51 else defaultOpcodeMap o
/-- A map that clears JMP's controls_pc bit. -/
def badControlMap : OpcodeMap := fun o => if o = .jmp then 0x44 else defaultOpcodeMap o
/-- A map that gives SUB the byte of ADD. -/
def badDistinctMap : OpcodeMap := fun o => if o = .sub then 0xA0 else defaultOpcodeMap o
/-- A map that R8 allows with other bytes for DIV, CALL and HLT. -/
def haltMap : OpcodeMap := fun o => if o = .div then 0xA4 else if o = .call then 0x51 else if o = .hlt then 0x02 else defaultOpcodeMap o
/-- Another map that R8 allows: ADD and SUB exchanged. -/
def swappedMap : OpcodeMap := fun o => if o = .add then 0xA1 else if o = .sub then 0xA0 else defaultOpcodeMap o

theorem test_map_count : badCountMap.countsAgree = false ∧ badCountMap.wellFormed = false := by decide
theorem test_map_control : badControlMap.controlAgrees = false ∧ badControlMap.wellFormed = false := by decide
theorem test_map_distinct : badDistinctMap.distinct = false ∧ badDistinctMap.wellFormed = false := by decide
theorem test_map_default : defaultOpcodeMap.wellFormed = true := by decide
theorem test_map_swapped : swappedMap.wellFormed = true := by decide

/-! ### Decode: a word of every instruction, written out from R80 and R75 -/

theorem test_decode_ldi : decode [0b10000010, 0b00000000, 0b00001000] = .ok (.ldi 0 8, []) := by decide
theorem test_decode_prn : decode [0b01000111, 0b00000111] = .ok (.prn 7, []) := by decide
theorem test_decode_add : decode [0b10100000, 0b00000001, 0b00000010] = .ok (.add 1 2, []) := by decide
theorem test_decode_sub : decode [0b10100001, 0b00000010, 0b00000001] = .ok (.sub 2 1, []) := by decide
theorem test_decode_mul : decode [0b10100010, 0b00000011, 0b00000100] = .ok (.mul 3 4, []) := by decide
theorem test_decode_div : decode [0b10100011, 0b00000101, 0b00000110] = .ok (.div 5 6, []) := by decide
theorem test_decode_and : decode [0b10101000, 0b00000111, 0b00000000] = .ok (.and 7 0, []) := by decide
theorem test_decode_or : decode [0b10101010, 0b00000000, 0b00000111] = .ok (.or 0 7, []) := by decide
theorem test_decode_xor : decode [0b10101011, 0b00000001, 0b00000001] = .ok (.xor 1 1, []) := by decide
theorem test_decode_cmp : decode [0b10100111, 0b00000110, 0b00000101] = .ok (.cmp 6 5, []) := by decide
theorem test_decode_push : decode [0b01000101, 0b00000010] = .ok (.push 2, []) := by decide
theorem test_decode_pop : decode [0b01000110, 0b00000011, 0b11111111] = .ok (.pop 3, [255]) := by decide
theorem test_decode_call : decode [0b01010000, 0b00000100] = .ok (.call 4, []) := by decide
theorem test_decode_ret : decode [0b00010001] = .ok (.ret, []) := by decide
theorem test_decode_jmp : decode [0b01010100, 0b00000101] = .ok (.jmp 5, []) := by decide
theorem test_decode_jeq : decode [0b01010101, 0b00000110] = .ok (.jeq 6, []) := by decide
theorem test_decode_jne : decode [0b01010110, 0b00000111] = .ok (.jne 7, []) := by decide
theorem test_decode_hlt : decode [0b00000001] = .ok (.hlt, []) := by decide
theorem test_decode_unknown : decode [0xC0, 0, 0] = .error (.unknownOpcode 0xC0) := by decide
theorem test_decode_missing : decode [0x82, 0] = .error (.missingOperand 0x82) := by decide
theorem test_decode_bad_b : decode [0xA0, 1, 9] = .error (.invalidRegister 2 9) := by decide
theorem test_decode_table_word : decodeTableWord 8 0x82 = some (.ldi 0 0) ∧ decodeTableWord 24 0x0503A1 = some (.sub 3 5) := by
  decide

/-! ### One step of every instruction -/

/-- The registers of a vector's start: x[0] and x[1]. -/
def withRegs (s : State) (x0 x1 : Byte) : State := (s.setReg 0 x0).setReg 1 x1

-- LD5: the last byte of memory is an operand, and pc becomes 256
theorem test_ldi_top : after (loadedAt 253 [0x82, 0x00, 0x09]) (fun t => (t.reg 0, t.pc)) = some (9, 256) := by decide
-- LD2: LDI writes SP
theorem test_ldi_sp : after (loadedAt 0 [0x82, 0x07, 0x09]) (fun t => (t.sp, t.pc)) = some (9, 3) := by decide
-- PR2
theorem test_prn_sp : after (loadedAt 0 [0x47, 0x07]) (fun t => (t.out, t.pc)) = some ([0xF4], 2) := by decide
-- A1
theorem test_add_wraps : after (withRegs (loadedAt 0 [0xA0, 0, 1]) 200 100) (fun t => (t.reg 0, t.reg 1, t.pc)) =
    some (44, 100, 3) := by decide
-- S1
theorem test_sub_wraps : after (withRegs (loadedAt 0 [0xA1, 0, 1]) 3 5) (fun t => (t.reg 0, t.fl)) = some (254, 0) := by decide
-- M4, and SR3's product 0x81 × 0x81
theorem test_mul : after (withRegs (loadedAt 0 [0xA2, 0, 1]) 15 17) (fun t => t.reg 0) = some 255 := by decide
theorem test_mul_self : after (withRegs (loadedAt 0 [0xA2, 0, 0]) 0x81 0) (fun t => t.reg 0) = some 1 := by decide
-- D6, D7
theorem test_div : after (withRegs (loadedAt 0 [0xA3, 0, 1]) 200 3) (fun t => (t.reg 0, t.reg 1)) = some (66, 3) := by decide
theorem test_div_zero : after (withRegs (loadedAt 0 [0xA3, 0, 1]) 5 0) (fun t => (t.reg 0, t.pc, t.run, t.haltRec)) =
    some (5, 0, .halted, ⟨.divisionByZero, 0, 0xA3, true, 0, false⟩) := by decide
-- L1, L2, L3
theorem test_and : after (withRegs (loadedAt 0 [0xA8, 0, 1]) 0xF0 0x3C) (fun t => t.reg 0) = some 0x30 := by decide
theorem test_or : after (withRegs (loadedAt 0 [0xAA, 0, 1]) 0xF0 0x3C) (fun t => t.reg 0) = some 0xFC := by decide
theorem test_xor : after (withRegs (loadedAt 0 [0xAB, 0, 1]) 0xF0 0x3C) (fun t => t.reg 0) = some 0xCC := by decide
-- C4, C5
theorem test_cmp_unsigned : after (withRegs (loadedAt 0 [0xA7, 0, 1]) 255 0) (fun t => (t.fl, t.reg 0)) = some (2, 255) := by
  decide
theorem test_cmp_less : after (withRegs (loadedAt 0 [0xA7, 0, 1]) 0 255) (fun t => t.fl) = some 4 := by decide
-- ST2, ST3
theorem test_push_wraps : after (((loadedAt 0 [0x45, 0]).setReg 0 0x77).setReg 7 0)
    (fun t => (t.sp, t.mem.read 255, t.pc)) = some (0xFF, 0x77, 2) := by decide
theorem test_push_sp : after (loadedAt 0 [0x45, 7]) (fun t => (t.sp, t.mem.read 0xF3)) = some (0xF3, 0xF3) := by decide
-- PO2, PO3
theorem test_pop_wraps : after ((loadedAt 0 [0x46, 1]).setReg 7 0xFF |>.setMem [(0, 0x46), (1, 1), (255, 0x33)])
    (fun t => (t.reg 1, t.sp, t.mem.read 255)) = some (0x33, 0, 0x33) := by decide
theorem test_pop_sp : after ((loadedAt 0 [0x46, 7]).setReg 7 0xF3 |>.setMem [(0, 0x46), (1, 7), (0xF3, 0x10)])
    (fun t => t.sp) = some 0x11 := by decide
-- CA3, CA5
theorem test_call_sp : after (loadedAt 0 [0x50, 7]) (fun t => (t.sp, t.mem.read 0xF3, t.pc)) = some (0xF3, 2, 0xF3) := by decide
theorem test_call_254 : after (loadedAt 254 [0x50, 1]) (fun t => (t.sp, t.pc, t.haltRec)) =
    some (0xF4, 254, ⟨.outOfBounds, 254, 0x50, true, 256, true⟩) := by decide
-- RE1, RE2
theorem test_ret : after ((loadedAt 0 [0x11]).setReg 7 0xF3 |>.setMem [(0, 0x11), (0xF3, 17)]) (fun t => (t.pc, t.sp)) =
    some (17, 0xF4) := by decide
theorem test_ret_empty : after (loadedAt 0 [0x11]) (fun t => (t.pc, t.sp)) = some (0, 0xF5) := by decide
-- JM3
theorem test_jmp_sp : after (loadedAt 0 [0x54, 7]) (fun t => t.pc) = some 0xF4 := by decide
-- JE1, JE2: fl set by hand
theorem test_jeq_taken : after ({ (loadedAt 23 [0x55, 3]).setReg 3 15 with fl := 1 }) (fun t => t.pc) = some 15 := by decide
theorem test_jeq_not_taken : after ({ (loadedAt 23 [0x55, 3]).setReg 3 15 with fl := 2 }) (fun t => t.pc) = some 25 := by decide
-- JN4, JN3
theorem test_jne_taken : after ((loadedAt 0 [0x56, 1]).setReg 1 0x30) (fun t => t.pc) = some 0x30 := by decide
theorem test_jne_not_taken : after ({ (loadedAt 23 [0x56, 3]).setReg 3 15 with fl := 1 }) (fun t => t.pc) = some 25 := by decide
-- H2, H3
theorem test_hlt_top : after (loadedAt 255 [0x01]) (fun t => (t.run, t.pc, t.haltRec)) =
    some (.halted, 256, ⟨.hlt, 255, 0x01, true, 0, false⟩) := by decide
theorem test_hlt_top_eager : afterEager (loadedAt 255 [0x01]) (fun t => (t.run, t.pc, t.haltRec)) =
    some (.halted, 255, ⟨.outOfBounds, 255, 0x01, true, 256, true⟩) := by decide

/-! ### Fetch and decode faults, ports -/

-- DE7, DE2 at 255, LD6, AX3
theorem test_fetch_256 : after (loadedAt 256 []) (fun t => (t.pc, t.haltRec)) =
    some (256, ⟨.outOfBounds, 256, 0, false, 256, true⟩) := by decide
theorem test_unknown_255 : after (loadedAt 255 [0xFF]) (fun t => t.haltRec) =
    some ⟨.unknownOpcode, 255, 0xFF, true, 255, true⟩ := by decide
theorem test_unknown_255_eager : afterEager (loadedAt 255 [0xFF]) (fun t => t.haltRec) =
    some ⟨.outOfBounds, 255, 0xFF, true, 256, true⟩ := by decide
theorem test_operand_254 : after (loadedAt 254 [0x82, 0]) (fun t => t.haltRec) =
    some ⟨.outOfBounds, 254, 0x82, true, 256, true⟩ := by decide
theorem test_bad_register_first : after (loadedAt 0 [0xA0, 9, 9]) (fun t => t.haltRec) =
    some ⟨.invalidRegister, 0, 0xA0, true, 1, true⟩ := by decide
-- JE5: the register is checked though the jump would not be taken
theorem test_jeq_bad_register : after (loadedAt 0 [0x55, 9]) (fun t => t.haltRec) =
    some ⟨.invalidRegister, 0, 0x55, true, 1, true⟩ := by decide
-- R237's example image, then the first step's fetch
theorem test_boot : (boot [.literal 0x82, .blank, .literal 0, .malformed, .literal 8]).map (fun s => (s.run, s.fetchBytes)) =
    some (.running, [0x82, 0, 8]) := by decide
theorem test_trace_top : (loadedAt 255 [0x01]).trace.byte0 = some 1 ∧ (loadedAt 255 [0x01]).trace.byte1 = none := by decide
-- The host's placing of a word, from reset: SUB R3,R5
theorem test_withFetchWord : (State.reset.withFetchWord 24 0x0503A1).fetchBytes = [0xA1, 3, 5] ∧
    (State.reset.withFetchWord 24 0x0503A1).run = .running := by decide

/-! ### Witnesses for the hypotheses of the obligations -/

theorem W_DecodeOfEncode : swappedMap.wellFormed = true ∧ defaultOpcodeMap.wellFormed = true := by decide
theorem W_EncodeOfDecode : decodeWith swappedMap [0xA1, 7, 0, 3] = .ok (.add 7 0, [3]) := by decide
theorem W_LengthFromOpcodeByte : decodeWith defaultOpcodeMap (0x11 :: [5, 6]) = .ok (.ret, [5, 6]) := by decide
theorem W_ControlBitExactlyForFive : swappedMap.wellFormed = true ∧ controlsPc (swappedMap .jmp) = true := by decide
theorem W_CountBitsOfEveryMap : swappedMap.wellFormed = true ∧ operandCount 0xC0 = 3 := by decide
theorem W_HostActionEffects : State.reset.run = .ready ∧ (loadedAt 0 []).run ≠ .ready ∧ HostAction.start ≠ .reset := by decide
theorem W_LoadWriteInReady : State.reset.run = .ready ∧ 254 ≠ (255 : Byte).toNat := by decide
theorem W_LoaderContract :
    ([0x82] : List Byte).length ≤ 256 ∧ ([0x82] : List Byte)[0]? = some 0x82 ∧ (loadedAt 0 []).run ≠ .ready ∧
    (loadedAt 0 []).loadImage [0x82] = some (loadedAt 0 []) ∧
    (List.replicate 256 (1 : Byte)).length ≤ 256 ∧ (List.replicate 256 (1 : Byte))[255]? = some 1 ∧
    256 < (List.replicate 257 (0 : Byte)).length := by
  refine ⟨by decide, by decide, by decide, by decide, ?_, ?_, ?_⟩
  · rw [List.length_replicate]
  · rw [List.getElem?_replicate, if_pos (by decide)]
  · rw [List.length_replicate]; decide
theorem imageBytes_replicate (n : Nat) : imageBytes (List.replicate n (.literal 0)) = some (List.replicate n 0) := by
  induction n with
  | zero => rfl
  | succ n ih => simp [List.replicate_succ, imageBytes, ih]
theorem W_InvalidImageNotStarted : 255 < 256 ∧ ∃ ls bytes, imageBytes ls = some bytes ∧ 256 < bytes.length :=
  ⟨by decide, _, _, imageBytes_replicate 257, by rw [List.length_replicate]; decide⟩
theorem W_BootRunsImageFromZero :
    (imageBytes [.literal 1] = some [1] ∧ ([1] : List Byte).length ≤ 256 ∧ ([1] : List Byte)[0]? = some 1 ∧
      ([1] : List Byte).length ≤ 255) ∧
    ∃ ls bytes, imageBytes ls = some bytes ∧ bytes.length ≤ 256 ∧ bytes[255]? = some 0 :=
  ⟨by decide, _, _, imageBytes_replicate 256, by rw [List.length_replicate], by rw [List.getElem?_replicate, if_pos (by decide)]⟩
theorem W_PortValues : (loadedAt 253 []).pc.toNat ≤ 253 ∧ 254 ≤ (loadedAt 254 []).pc.toNat ∧
    255 ≤ (loadedAt 255 []).pc.toNat ∧ 256 ≤ (loadedAt 256 []).pc.toNat ∧ (loadedAt 255 []).pc.toNat ≤ 255 ∧
    (loadedAt 254 []).pc.toNat ≤ 254 ∧ (loadedAt 0 []).run = .running ∧ State.reset.run ≠ .running := by decide
theorem W_MemoryPort : 255 < (256 : Addr).toNat ∧ (255 : Addr).toNat ≤ 255 ∧ 254 ≠ (255 : Addr).toNat := by decide
theorem W_NoStepUnlessRunning : State.reset.run ≠ .running := by decide
theorem W_StepRunsDecodedInstruction :
    (loadedAt 255 [0x11]).run = .running ∧ decode (loadedAt 255 [0x11]).fetchBytes = .ok (.ret, []) := by decide
theorem W_StepWithRunsDecodedInstruction : (loadedAt 253 [0xA1, 1, 2]).run = .running ∧
    (loadedAt 253 [0xA1, 1, 2]).pc.toNat ≤ 253 ∧
    decodeWith swappedMap (loadedAt 253 [0xA1, 1, 2]).fetchBytes = .ok (.add 1 2, []) := by decide
theorem W_FatalOrderBeforeExecute_fetch : haltMap.wellFormed = true ∧ (loadedAt 256 []).run = .running ∧
    255 < (loadedAt 256 []).pc.toNat := by decide
theorem W_FatalOrderBeforeExecute_unknown : (loadedAt 255 [0xA3]).run = .running ∧ (loadedAt 255 [0xA3]).pc.toNat ≤ 255 ∧
    (loadedAt 255 [0xA3]).mem.read 255 = 0xA3 ∧ haltMap.lookup 0xA3 = none := by decide
theorem W_FatalOrderBeforeExecute_operand : haltMap.lookup 0xA4 = some .div ∧ (loadedAt 254 [0xA4]).mem.read 254 = 0xA4 ∧
    255 < (loadedAt 254 [0xA4]).pc.toNat + operandCount 0xA4 ∧ (loadedAt 253 [0xA4]).pc.toNat + operandCount 0xA4 ≤ 255 := by decide
theorem W_FatalOrderBeforeExecute_register : haltMap.lookup 0xA4 = some .div ∧
    1 ∈ Op.div.format.registerPositions ∧ 2 ∈ Op.div.format.registerPositions ∧
    (loadedAt 253 [0xA4, 7, 8]).pc.toNat + operandCount 0xA4 ≤ 255 ∧
    (loadedAt 253 [0xA4, 7, 8]).mem.read 254 = 7 ∧ (7 : Byte).toNat ≤ 7 ∧
    (loadedAt 253 [0xA4, 7, 8]).mem.read 255 = 8 ∧ 7 < (8 : Byte).toNat := by decide
theorem W_HaltsUnderEveryMap : haltMap.wellFormed = true ∧ (loadedAt 253 [0xA4, 0, 1]).run = .running ∧
    (loadedAt 253 [0xA4, 0, 1]).pc.toNat ≤ 253 ∧
    decodeWith haltMap (loadedAt 253 [0xA4, 0, 1]).fetchBytes = .ok (.div 0 1, []) ∧ (loadedAt 253 [0xA4, 0, 1]).reg 1 = 0 ∧
    decodeWith haltMap (loadedAt 254 [0x51, 7]).fetchBytes = .ok (.call 7, []) ∧ 253 < (loadedAt 254 [0x51, 7]).pc.toNat ∧
    decodeWith haltMap (loadedAt 255 [0x02]).fetchBytes = .ok (.hlt, []) := by decide
theorem W_FatalEntry : ∃ op b : Option Byte, op = some 0xA3 ∧ b = none ∧
    (State.reset.raise .divisionByZero op).haltRec.fopcV = true ∧
    (State.reset.raise (.outOfBoundsAccess 256) b).haltRec.fopcV = false := ⟨some 0xA3, none, rfl, rfl, rfl, rfl⟩
theorem W_FatalStepsArePrecise : (loadedAt 0 [0xA3, 0, 1]).run = .running ∧
    step (loadedAt 0 [0xA3, 0, 1]) = .next ((loadedAt 0 [0xA3, 0, 1]).raise .divisionByZero (some 0xA3)) ∧
    ((loadedAt 0 [0xA3, 0, 1]).raise .divisionByZero (some 0xA3)).haltRec.cause ≠ .hlt := ⟨rfl, rfl, by decide⟩
theorem W_ExecuteHaltsOnlyThus : (loadedAt 254 []).run = .running ∧
    exec (.call 0) (loadedAt 254 []) = .next ((loadedAt 254 []).raise (.outOfBoundsAccess 256) (some 0x50)) ∧
    exec (.div 0 1) (loadedAt 254 []) = .next ((loadedAt 254 []).raise .divisionByZero (some 0xA3)) ∧
    (next? (exec .hlt (loadedAt 254 []))).map (·.run) = some .halted := ⟨rfl, rfl, rfl, by decide⟩
theorem W_EagerFetchDiffersOnlyAtTop : defaultOpcodeMap.wellFormed = true ∧ (loadedAt 254 []).run = .running ∧
    (loadedAt 254 []).pc.toNat = 254 ∧ (loadedAt 255 []).pc.toNat = 255 ∧ (loadedAt 253 []).pc.toNat ≠ 254 ∧
    (loadedAt 253 []).pc.toNat ≠ 255 := by decide
/-- The state of `loadedAt 0 [0x01]` meets the invariant. -/
theorem W_inv : (loadedAt 0 [0x01]).Inv :=
  ⟨by decide, by decide, .inl rfl, ⟨by decide, rfl⟩, rfl, fun h => by cases h⟩
theorem W_StepKeepsInvariant : (loadedAt 0 [0x01]).Inv ∧ ∃ t, step (loadedAt 0 [0x01]) = .next t := ⟨W_inv, _, rfl⟩
theorem W_StepWithKeepsInvariant : swappedMap.wellFormed = true ∧ (loadedAt 0 [0x01]).Inv ∧
    ∃ t, stepWith ⟨swappedMap, true⟩ (loadedAt 0 [0x01]) = .next t := ⟨by decide, W_inv, _, rfl⟩
theorem W_HostKeepsInvariant : (loadedAt 0 [0x01]).Inv := W_inv
theorem W_BootedRunsMeetInvariant : ∃ s, boot [.literal 1] = some s := ⟨_, rfl⟩
/-- A core halted by HLT. -/
def haltedCore : State := (loadedAt 0 [0x01]).haltWith ⟨.hlt, 0, 1, true, 0, false⟩
/-- That core past its HLT meets the invariant: FOPC is the byte at FPC. -/
theorem W_inv_halted : (haltedCore.setPc 1).Inv :=
  ⟨by decide, by decide, .inl rfl, ⟨rfl, rfl, by decide, rfl, rfl, rfl⟩, by unfold State.fopcLegal; decide, fun h => by cases h⟩
theorem W_HaltedIsTerminal : haltedCore.run = .halted ∧ HostAction.start ≠ .reset := by decide
theorem W_HaltRecordWrittenOnHalt : ∃ t, step (loadedAt 0 [0x01]) = .next t ∧ t.haltRec ≠ (loadedAt 0 [0x01]).haltRec :=
  ⟨_, rfl, by decide⟩
theorem W_DivResult : (State.reset.setReg 1 1).reg 1 ≠ 0 ∧ State.reset.reg 1 = 0 := by decide
theorem W_CallResult : (loadedAt 253 []).pc.toNat ≤ 253 ∧ 253 < (loadedAt 254 []).pc.toNat := by decide
theorem W_JumpResults : State.reset.fl.getLsbD 0 = false ∧ ({ State.reset with fl := 1 } : State).fl.getLsbD 0 = true := by decide
theorem W_OnlyCmpWritesFlags : (∃ t, exec (.add 0 1) State.reset = .next t) ∧ (∀ a b, Instr.add 0 1 ≠ .cmp a b) ∧
    (∃ t, step (loadedAt 0 [0xA7, 0, 1]) = .next t ∧ t.fl ≠ (loadedAt 0 [0xA7, 0, 1]).fl) ∧
    ∃ t, exec (.cmp 0 7) State.reset = .next t :=
  ⟨⟨_, rfl⟩, (fun _ _ h => by cases h), ⟨_, rfl, by decide⟩, _, rfl⟩
theorem W_AluPureAndInPlace : (Instr.div 7 7).op = .div ∧ aluOperands (.div 7 7) = some (7, 7) ∧ (∃ t, exec (.div 7 7) State.reset = .next t) ∧
    ∃ t, exec (.cmp 7 7) State.reset = .next t := ⟨rfl, rfl, ⟨_, rfl⟩, _, rfl⟩
theorem W_CompareIsTrichotomy : ∃ t, exec (.cmp 6 7) State.reset = .next t ∧ t.flagL = true := ⟨_, rfl, by decide⟩
theorem W_ExecutePhaseFlow : (∃ t, phase 0x82 (.ldi 7 1) State.reset = .done .advance t) ∧ Op.ldi.controlsPc = false ∧
    (∃ t, phase 0x54 (.jmp 0) State.reset = .done .jumped t) ∧ (∃ t, phase 0x50 (.call 0) State.reset = .done .jumped t) ∧
    (∃ t, phase 0x11 .ret State.reset = .done .jumped t) ∧ (∃ t, phase 0x55 (.jeq 0) State.reset = .done .advance t) ∧
    ∃ t, phase 0x56 (.jne 0) State.reset = .done .jumped t :=
  ⟨⟨_, rfl⟩, rfl, ⟨_, rfl⟩, ⟨_, rfl⟩, ⟨_, rfl⟩, ⟨_, rfl⟩, _, rfl⟩
theorem W_PcChangesInTwoWays : (∃ t, step (loadedAt 0 [0x54, 7]) = .next t) ∧ (∃ t, step (loadedAt 253 [0x82, 0, 9]) = .next t) ∧
    ∃ t, step (loadedAt 256 []) = .next t := ⟨⟨_, rfl⟩, ⟨_, rfl⟩, _, rfl⟩
theorem W_OutputOnlyAppendedByPrn : (∃ t, exec (.prn 7) State.reset = .next t) ∧ (∀ a, Instr.hlt ≠ .prn a) ∧
    (∃ t, exec .hlt State.reset = .next t) ∧ ∃ t, step (loadedAt 0 [0x47, 7]) = .next t :=
  ⟨⟨_, rfl⟩, (fun _ h => by cases h), ⟨_, rfl⟩, _, rfl⟩
theorem W_GreaterAndLessUnread : (4 : Byte).getLsbD 0 = (loadedAt 0 [0x56, 7]).fl.getLsbD 0 ∧
    (∃ t, step (loadedAt 0 [0x56, 7]) = .next t) ∧ State.reset.run ≠ .running := ⟨by decide, ⟨_, rfl⟩, by decide⟩
theorem W_FrameOfEveryInstruction : (∃ t, exec (.push 7) State.reset = .next t) ∧ writesRegister (.push 7) 0 = false ∧
    storesTo (.push 7) State.reset = some 0xF3 ∧ storesTo .ret State.reset = none ∧ ∃ t, exec .ret State.reset = .next t :=
  ⟨⟨_, rfl⟩, by decide, by decide, rfl, _, rfl⟩
theorem W_PushThenPop : (0 : Reg) ≠ 7 ∧ (6 : Reg) ≠ 7 ∧ ∃ t u, exec (.push 0) State.reset = .next t ∧ exec (.pop 6) t = .next u :=
  ⟨by decide, by decide, _, _, rfl, rfl⟩
theorem W_CallThenRet : (loadedAt 253 []).pc.toNat ≤ 253 ∧
    ∃ t u, exec (.call 7) (loadedAt 253 []) = .next t ∧ exec .ret t = .next u := ⟨by decide, _, _, rfl, rfl⟩
theorem W_JumpsTestMostRecentCmp : (∀ i ∈ [Instr.add 0 1], ∀ x y, i ≠ .cmp x y) ∧
    ∃ t u, exec (.cmp 0 1) State.reset = .next t ∧ Executes [.add 0 1] t u := by
  refine ⟨fun i hi x y h => ?_, _, _, rfl, _, rfl, rfl⟩
  rw [List.mem_singleton] at hi
  rw [hi] at h
  cases h
/-- PUSH R0 at 0 with SP = 3: it stores at 2, the next opcode's address. -/
def pushAhead : State := ((loadedAt 0 [0x45, 0]).setReg 7 3).setReg 0 1
/-- CALL R7 at 253 with SP = 0: it stores at 255 and jumps there, so it fetches its own return address as an opcode. -/
def callOntoStore : State := (loadedAt 253 [0x50, 7]).setReg 7 0
theorem W_StoreSeenByNextFetch : pushAhead.run = .running ∧ decode pushAhead.fetchBytes = .ok (.push 0, [0]) ∧
    decode (bytesAfterStore pushAhead pushAhead.decSp.sp.toNat (pushAhead.decSp.reg 0) 2) = .ok (.hlt, [0, 0]) ∧
    callOntoStore.run = .running ∧ decode callOntoStore.fetchBytes = .ok (.call 7, [0]) ∧ callOntoStore.pc.toNat ≤ 253 ∧
    (bytesAfterStore callOntoStore callOntoStore.decSp.sp.toNat 0xFF 255).head? = some 0xFF ∧
    defaultOpcodeMap.lookup 0xFF = none := by decide

end Sys2Proof.Tests
end

/-! PROOFS of the statements of scope (00_scope.md R8): what the execute phase of an instruction can answer, what the end of
its step then does to the invariant, and the parametric core against the decoder and against the default core. -/

namespace Sys2Proof

/-- An instruction has the operand bytes its format names (R75). -/
theorem Instr.operandBytes_length (i : Instr) : i.operandBytes.length = i.op.format.operandCount := by
  cases i <;> rfl

/-- Operation and operand bytes determine the instruction (R75, R76). -/
theorem Instr.eq_of_op_of_operandBytes {i j : Instr} (ho : i.op = j.op) (hb : i.operandBytes = j.operandBytes) : i = j := by
  have hraw : i.raw = j.raw := by simp [Instr.raw, ho, hb]
  simpa using congrArg Raw.toInstr? hraw

theorem Format.operandCount_le_two (f : Format) : f.operandCount ≤ 2 := by
  cases f <;> decide

/-- A known byte of an allowed map counts the operands of the operation it selects (R72, R81). -/
theorem OpcodeMap.operandCount_of_lookup {m : OpcodeMap} (h : m.wellFormed = true) {b : Byte} {o : Op}
    (hl : m.lookup b = some o) : operandCount b = o.format.operandCount :=
  OpcodeMap.lookup_some hl ▸ m.count_of_wellFormed h o

/-- The length in an allowed map's byte is its operation's operand count plus 1 (R72, R74). -/
theorem OpcodeMap.instrLength_of_wellFormed {m : OpcodeMap} (h : m.wellFormed = true) (o : Op) :
    instrLength (m o) = o.format.operandCount + 1 :=
  congrArg (· + 1) (m.count_of_wellFormed h o)

/-- All that bytes which decode are: a known opcode byte, then as many bytes as it counts, which pass the register check and
are the instruction's operand bytes, then the bytes left over (R74 to R76, R87). -/
theorem decodeWith_ok {m : OpcodeMap} {bytes : List Byte} {i : Instr} {rest : List Byte}
    (h : decodeWith m bytes = .ok (i, rest)) :
    ∃ op more, bytes = op :: more ∧ m.lookup op = some i.op ∧ operandCount op ≤ more.length ∧
      firstBadRegister i.op.format i.operandBytes = none ∧ more.take (operandCount op) = i.operandBytes ∧
      rest = more.drop (operandCount op) := by
  cases bytes with
  | nil => cases h
  | cons op more =>
    simp only [decodeWith] at h
    cases hl : m.lookup op with
    | none => simp [hl] at h
    | some o =>
      simp only [hl] at h
      split at h
      · cases h
      · rename_i hlen
        cases hb : firstBadRegister o.format (more.take (operandCount op)) with
        | some ib => simp [hb] at h
        | none =>
          cases hi : (Raw.mk o (more.take (operandCount op))).toInstr? with
          | none => simp [hb, hi] at h
          | some j =>
            simp only [hb, hi, Except.ok.injEq, Prod.mk.injEq] at h
            obtain ⟨rfl, rfl⟩ := h
            obtain ⟨rfl, hops⟩ := Raw.mk.inj (Raw.toInstr?_some hi)
            rw [hops] at hb
            exact ⟨op, more, rfl, hl, by omega, hb, hops, rfl⟩

end Sys2Proof

namespace Sys2Proof.Machine

/-! ### The execute phase -/

theorem zext_toNat_le (b : Byte) : (zext b).toNat ≤ 255 := by
  rw [zext_toNat]
  have := b.isLt
  omega

/-- An address plus a count does not wrap where the sum is at most 256 (R87). -/
theorem addr_add_toNat {a : Addr} {n : Nat} (h : a.toNat + n ≤ 256) : (a + BitVec.ofNat 9 n).toNat = a.toNat + n := by
  rw [BitVec.toNat_add, BitVec.toNat_ofNat]
  omega

/-- PUSH never fails: its store goes to the byte SP names after the decrement (R150). -/
theorem pushPhase_eq (a : Reg) (s : State) :
    pushPhase a s = .done .advance (s.decSp.setMem (s.mem.write s.decSp.sp.toNat (s.decSp.reg a))) := by
  simp [pushPhase]

/-- POP never fails (R151). -/
theorem popPhase_eq (a : Reg) (s : State) :
    popPhase a s = .done .advance (s.setReg a (s.mem.read s.sp.toNat)).incSp := by
  simp [popPhase]

/-- RET never fails (R161). -/
theorem retPhase_eq (s : State) : retPhase s = .done .jumped (s.setPc (zext (s.mem.read s.sp.toNat))).incSp := by
  simp [retPhase]

/-- CALL up to 253 stores its return address and jumps (R160, D8). -/
theorem callPhase_of_le (a : Reg) {s : State} (h : s.pc.toNat ≤ 253) :
    callPhase a s =
      jumpTo a (s.decSp.setMem (s.mem.write s.decSp.sp.toNat (BitVec.ofNat 8 (s.pc.toNat + 2)))) := by
  simp [callPhase, returnAddress, show ¬ s.pc.toNat + 2 > 255 by omega]

/-- CALL above 253 is OutOfBoundsAccess of its return address (R160, D8). -/
theorem callPhase_of_gt (a : Reg) {s : State} (h : 253 < s.pc.toNat) :
    callPhase a s = .raised (.outOfBoundsAccess (BitVec.ofNat 9 (s.pc.toNat + 2))) :=
  if_pos (show returnAddress s > 255 by simp only [returnAddress]; omega)

/-- What an instruction that does not halt leaves of the state it began in: the run state and the halt record, memory but
for one cell at a byte address, and the flags but for the result of a comparison. -/
structure Carries (s u : State) : Prop where
  run : u.run = s.run
  haltRec : u.haltRec = s.haltRec
  mem : u.mem = s.mem ∨ ∃ a v : Byte, u.mem = s.mem.write a.toNat v
  fl : u.fl = s.fl ∨ ∃ f : FlagState, u.fl = f.toByte

/-- The answers of the execute phase: HLT halts, DIV by 0 and CALL above 253 raise, and everything else carries on, with pc
left (Advance) or at a target inside memory (Jumped) (R94, R206 item 5). -/
inductive PhaseAnswer (op : Byte) (s : State) : Instr → Phase → Prop where
  | halts : PhaseAnswer op s .hlt (.done .advance (s.haltWith ⟨.hlt, s.pc, op, true, 0, false⟩))
  | dividesByZero {a b : Reg} : s.reg b = 0 → PhaseAnswer op s (.div a b) (.raised .divisionByZero)
  | callsOut {a : Reg} : 253 < s.pc.toNat →
      PhaseAnswer op s (.call a) (.raised (.outOfBoundsAccess (BitVec.ofNat 9 (s.pc.toNat + 2))))
  | advances {i : Instr} {u : State} : Carries s u → u.pc = s.pc → PhaseAnswer op s i (.done .advance u)
  | jumps {i : Instr} {u : State} : Carries s u → i.op.controlsPc = true → u.pc.toNat ≤ 255 →
      PhaseAnswer op s i (.done .jumped u)

/-- ALU operations write one register (R129). -/
theorem aluPhase_answer (op : Byte) (i : Instr) (f : Byte → Byte → Byte) (a b : Reg) (s : State) :
    PhaseAnswer op s i (aluPhase f a b s) :=
  .advances ⟨rfl, rfl, .inl rfl, .inl rfl⟩ rfl

/-- A jump from a state that carries on goes to a byte address (R10). -/
theorem jumpTo_answer {op : Byte} {i : Instr} {s u : State} (hc : i.op.controlsPc = true) (hu : Carries s u) (a : Reg) :
    PhaseAnswer op s i (jumpTo a u) :=
  .jumps ⟨hu.run, hu.haltRec, hu.mem, hu.fl⟩ hc (zext_toNat_le _)

/-- So does the store of a byte at the decremented SP (R150, R160). -/
theorem carries_decSp_store (s : State) (v : Byte) :
    Carries s (s.decSp.setMem (s.mem.write s.decSp.sp.toNat v)) :=
  ⟨rfl, rfl, .inr ⟨_, _, rfl⟩, .inl rfl⟩

/-- Everything an execute phase can answer. -/
theorem phase_answer (op : Byte) (i : Instr) (s : State) : PhaseAnswer op s i (phase op i s) := by
  have unchanged : Carries s s := ⟨rfl, rfl, .inl rfl, .inl rfl⟩
  cases i with
  | ldi a imm => exact .advances ⟨rfl, rfl, .inl rfl, .inl rfl⟩ rfl
  | prn a => exact .advances ⟨rfl, rfl, .inl rfl, .inl rfl⟩ rfl
  | add a b => exact aluPhase_answer op _ aluAdd a b s
  | sub a b => exact aluPhase_answer op _ aluSub a b s
  | mul a b => exact aluPhase_answer op _ aluMul a b s
  | and a b => exact aluPhase_answer op _ aluAnd a b s
  | or a b => exact aluPhase_answer op _ aluOr a b s
  | xor a b => exact aluPhase_answer op _ aluXor a b s
  | div a b =>
    simp only [phase, divPhase]
    split
    · exact .dividesByZero ‹_›
    · exact aluPhase_answer op _ aluDiv a b s
  | cmp a b => exact .advances ⟨rfl, rfl, .inl rfl, .inr ⟨_, rfl⟩⟩ rfl
  | push a =>
    rw [phase, pushPhase_eq]
    exact .advances (carries_decSp_store s _) rfl
  | pop a =>
    rw [phase, popPhase_eq]
    exact .advances ⟨rfl, rfl, .inl rfl, .inl rfl⟩ rfl
  | call a =>
    rw [phase]
    by_cases h : s.pc.toNat ≤ 253
    · rw [callPhase_of_le a h]
      exact jumpTo_answer rfl (carries_decSp_store s _) a
    · rw [callPhase_of_gt a (by omega)]
      exact .callsOut (by omega)
  | ret =>
    rw [phase, retPhase_eq]
    exact .jumps ⟨rfl, rfl, .inl rfl, .inl rfl⟩ rfl (zext_toNat_le _)
  | jmp a => exact jumpTo_answer rfl unchanged a
  | jeq a =>
    simp only [phase, jeqPhase]
    split
    · exact jumpTo_answer rfl unchanged a
    · exact .advances unchanged rfl
  | jne a =>
    simp only [phase, jnePhase]
    split
    · exact .advances unchanged rfl
    · exact jumpTo_answer rfl unchanged a
  | hlt => exact .halts

/-! ### The invariant -/

/-- Before the core halts its halt record is zero (R34). -/
theorem State.Inv.haltRec_zero {s : State} (hi : s.Inv) (hr : s.run = .running) : s.haltRec = HaltRec.zero := by
  have h := hi.haltRec
  unfold State.haltRecLegal at h
  split at h
  · exact h.2
  all_goals simp [hr] at h

/-- The flags are legal after any comparison (R29, R127). -/
theorem FlagState.toByte_legal (f : FlagState) : f.toByte = 0 ∨ f.toByte = 1 ∨ f.toByte = 2 ∨ f.toByte = 4 := by
  cases f <;> decide

/-- An instruction that does not halt keeps the invariant, whatever pc up to 256 its step ends with. -/
theorem State.Inv.carries {s u : State} (hi : s.Inv) (hr : s.run = .running) (hu : Carries s u) {target : Addr}
    (hpc : target.toNat ≤ 256) : (u.setPc target).Inv := by
  have hrun : u.run = .running := hu.run.trans hr
  have hrec : u.haltRec = HaltRec.zero := hu.haltRec.trans (hi.haltRec_zero hr)
  refine ⟨?mem, hpc, ?flags, ?haltRec, ?fopc, ?fresh⟩
  case mem =>
    obtain h | ⟨a, v, h⟩ := hu.mem
    · simpa [h] using hi.mem
    · simpa [h] using Memory.wf_write hi.mem a.isLt v
  case flags =>
    obtain h | ⟨f, h⟩ := hu.fl
    · simpa [State.flagsLegal, h] using hi.flags
    · simpa [State.flagsLegal, h] using f.toByte_legal
  case haltRec => simp [State.haltRecLegal, hrec, hrun, HaltRec.zero]
  case fopc => simp [State.fopcLegal, hrec, HaltRec.zero]
  case fresh => intro h; simp [hrun] at h

/-- Halting keeps the invariant, when the record and the pc the step ends with are a row of R208 and FOPC is the byte at
FPC. -/
theorem State.Inv.halts {s : State} (hi : s.Inv) {r : HaltRec} {target : Addr} (hpc : target.toNat ≤ 256)
    (hrec : ((s.haltWith r).setPc target).haltRecLegal)
    (hop : r.fopc = if r.fopcV = true then s.mem.read r.fpc.toNat else 0) :
    ((s.haltWith r).setPc target).Inv :=
  ⟨hi.mem, hpc, hi.flags, hrec, hop, nofun⟩

/-- Taking a fatal condition after the opcode fetch keeps the invariant, when its record is a row of R208. -/
theorem State.Inv.raise {s : State} (hi : s.Inv) {f : Fatal}
    (hrec : (s.raise f (some (s.mem.read s.pc.toNat))).haltRecLegal) :
    (s.raise f (some (s.mem.read s.pc.toNat))).Inv :=
  hi.halts hi.pc hrec rfl

/-- OutOfBoundsAccess(256) at 254 or 255, after the opcode fetch, is a row of R208. -/
theorem State.Inv.raise_outOfBounds {s : State} (hi : s.Inv) (hlo : 254 ≤ s.pc.toNat) (hhi : s.pc.toNat ≤ 255) :
    (s.raise (.outOfBoundsAccess 256) (some (s.mem.read s.pc.toNat))).Inv :=
  hi.raise ⟨rfl, rfl, rfl, rfl, .inr ⟨hlo, hhi, rfl⟩⟩

/-- Executing an instruction whose bytes lie in memory at pc keeps the invariant (R93, R94, R206 item 5). -/
theorem execOp_keeps_inv {m : OpcodeMap} (hw : m.wellFormed = true) {i : Instr} {s t : State} (hi : s.Inv)
    (hr : s.run = .running) (hop : s.mem.read s.pc.toNat = m i.op) (hin : s.pc.toNat + i.op.format.operandCount ≤ 255)
    (h : execOp (m i.op) i s = .next t) : t.Inv := by
  have hlen := m.instrLength_of_wellFormed hw i.op
  have hpc : s.pc.toNat ≤ 255 := by omega
  have hend : (s.pc + BitVec.ofNat 9 (instrLength (m i.op))).toNat ≤ 256 := by
    rw [hlen, addr_add_toNat (by omega)]
    omega
  have ha := phase_answer (m i.op) i s
  unfold execOp at h
  generalize phase (m i.op) i s = ph at h ha
  cases ha with
  | halts =>
    obtain rfl : _ = t := by simpa using h
    refine hi.halts hend ⟨rfl, ?_, hpc, rfl, rfl, rfl⟩ hop.symm
    rw [hlen]
    rfl
  | dividesByZero =>
    obtain rfl : _ = t := by simpa using h
    rw [← hop]
    exact hi.raise ⟨rfl, rfl, hpc, rfl, rfl, rfl⟩
  | callsOut htop =>
    have hcall : s.pc.toNat + 1 ≤ 255 := hin
    obtain rfl : _ = t := by simpa using h
    rw [← hop, show s.pc.toNat + 2 = 256 by omega]
    exact hi.raise_outOfBounds htop hpc
  | advances hu =>
    obtain rfl : _ = t := by simpa using h
    exact hi.carries hr hu hend
  | jumps hu hc htarget =>
    rw [finish_jumped ((m.control_of_wellFormed hw i.op).trans hc)] at h
    cases h
    exact hi.carries hr hu (Nat.le_succ_of_le htarget)

/-- Under an allowed map, a step that gets past the operand fetch has all its operand bytes in memory (R72, R91). -/
theorem operands_in_memory {p : Params} {s : State} {o : Op} (hw : p.opcodeMap.wellFormed = true)
    (he : p.eagerOperandFetch = true → s.pc.toNat ≤ 253)
    (hin : p.eagerOperandFetch = false → s.pc.toNat + operandCount (s.mem.read s.pc.toNat) ≤ 255)
    (hl : p.opcodeMap.lookup (s.mem.read s.pc.toNat) = some o) : s.pc.toNat + o.format.operandCount ≤ 255 := by
  cases hf : p.eagerOperandFetch with
  | true =>
    have := he hf
    have := o.format.operandCount_le_two
    omega
  | false =>
    exact OpcodeMap.operandCount_of_lookup hw hl ▸ hin hf

/-- A fetch and execute from a state that meets the invariant ends in one that does. -/
theorem fetchExecute_keeps_inv {p : Params} (hw : p.opcodeMap.wellFormed = true) {s t : State} (hi : s.Inv)
    (hr : s.run = .running) (h : fetchExecute p execOp s = .next t) : t.Inv := by
  have ha := fetchExecute_answer p execOp s
  rw [h] at ha
  generalize ho : (Host.Outcome.next t : Outcome) = out at ha
  cases ha with
  | fetchOut hpc =>
    cases ho
    have h256 : s.pc = 256 := BitVec.eq_of_toNat_eq (by have := hi.pc; simp; omega)
    exact hi.halts hi.pc ⟨rfl, rfl, h256, rfl, .inl ⟨h256, rfl, rfl⟩⟩ rfl
  | eagerOut hpc _ htop =>
    cases ho
    exact hi.raise_outOfBounds htop hpc
  | unknown hpc =>
    cases ho
    exact hi.raise ⟨rfl, rfl, hpc, rfl, rfl, rfl⟩
  | operandOut o hpc _ hl hout =>
    cases ho
    have := OpcodeMap.operandCount_of_lookup hw hl
    have := o.format.operandCount_le_two
    exact hi.raise_outOfBounds (by omega) hpc
  | badRegister o i b hpc he hin hl hb =>
    cases ho
    obtain ⟨hi12, hget, -⟩ := firstBadRegister_some hb
    have hmem := operands_in_memory hw he hin hl
    have hpos : i - 1 < o.format.operandCount := by
      rw [← operandsRead_length hw he hin hl]
      exact (List.getElem?_eq_some_iff.mp hget).1
    have haddr := addr_add_toNat (a := s.pc) (n := i) (by omega)
    refine hi.raise ⟨rfl, rfl, rfl, rfl, ?_, ?_, hpc⟩
    · obtain rfl | rfl := hi12
      · exact .inl rfl
      · exact .inr rfl
    · show (s.pc + BitVec.ofNat 9 i).toNat ≤ 255
      omega
  | badMap => cases ho
  | runs i _ he hin hl _ =>
    have hop := (OpcodeMap.lookup_some hl).symm
    rw [hop] at ho
    exact execOp_keeps_inv hw hi hr hop (operands_in_memory hw he hin hl) ho.symm

/-- Settles O28: a core that is not Running stays as it is, and every answer of a Running core keeps the invariant. -/
theorem stepWithKeepsInvariant : Obligations.StepWithKeepsInvariant := by
  intro p s t hw hi h
  by_cases hr : s.run = .running
  · exact fetchExecute_keeps_inv hw hi hr ((cycle_of_running hr p execOp).symm.trans h)
  · obtain rfl : s = t := by simpa [stepWith, cycle_of_not_running hr] using h
    exact hi

/-! ### The parametric core, the decoder and the default core -/

/-- What bytes at pc that decode say of memory: the opcode byte at pc is the instruction's, all its operand bytes are in
memory, and both forms of operand fetch read them (R87, R91). -/
theorem fetchBytes_decode {p : Params} {s : State} {i : Instr} {rest : List Byte}
    (h : decodeWith p.opcodeMap s.fetchBytes = .ok (i, rest)) :
    p.opcodeMap.lookup (s.mem.read s.pc.toNat) = some i.op ∧
      s.pc.toNat + operandCount (s.mem.read s.pc.toNat) ≤ 255 ∧
      operandsRead p s (s.mem.read s.pc.toNat) = i.operandBytes ∧
      firstBadRegister i.op.format i.operandBytes = none := by
  obtain ⟨op, more, hbytes, hl, hlen, hbad, hops, -⟩ := decodeWith_ok h
  rw [State.fetchBytes, Memory.window_succ] at hbytes
  split at hbytes
  · obtain ⟨rfl, rfl⟩ := List.cons.inj hbytes
    rw [Memory.window_length] at hlen
    refine ⟨hl, by omega, ?_, hbad⟩
    rw [← hops, operandsRead, Memory.window_take _ _ (by omega), ite_self]
  · cases hbytes

/-- Settles O19: every other answer of the step contradicts what decodes at pc. -/
theorem stepWithRunsDecodedInstruction : Obligations.StepWithRunsDecodedInstruction := by
  intro p s i rest hr heager h
  obtain ⟨hl, hin, hops, hbad⟩ := fetchBytes_decode h
  have ha := fetchExecute_answer p execOp s
  rw [stepWith, cycle_of_running hr]
  generalize fetchExecute p execOp s = out at ha
  cases ha with
  | fetchOut hpc => omega
  | eagerOut _ he hpc => exact absurd (heager he) (by omega)
  | unknown _ _ hnone => simp [hl] at hnone
  | operandOut o _ _ _ hout => omega
  | badRegister o k b _ _ _ hl' hb =>
    obtain rfl : i.op = o := by simpa [hl] using hl'
    simp [hops, hbad] at hb
  | badMap o _ _ _ hl' hne =>
    obtain rfl : i.op = o := by simpa [hl] using hl'
    exact absurd (hops ▸ i.operandBytes_length) hne
  | runs j _ _ _ hl' hops' =>
    obtain rfl : i = j := Instr.eq_of_op_of_operandBytes (by simpa [hl] using hl') (hops.symm.trans hops')
    rw [OpcodeMap.lookup_some hl]

/-- The meaning exec dispatches to is the phase under the default map's byte, ended by the sequencer. -/
theorem exec_eq_execOp (i : Instr) (s : State) : exec i s = execOp (defaultOpcodeMap i.op) i s := by
  cases i <;> rfl

section CycleCongr

variable {p : Params} {run run' : Byte → Instr → State → Outcome}
  (h : ∀ (i : Instr) (s : State), run (p.opcodeMap i.op) i s = run' (p.opcodeMap i.op) i s)
include h

/-- For a known operation the operands asked for are executed only as an instruction of that operation (R87). -/
theorem operandsExecute_congr (s : State) {op : Byte} {o : Op} (hop : p.opcodeMap o = op) (latched : List Byte) :
    operandsExecute p run s op o latched = operandsExecute p run' s op o latched := by
  unfold operandsExecute
  split
  · rfl
  · split
    · rfl
    · split
      · rfl
      · next i hi =>
        obtain ⟨rfl, -⟩ := Raw.mk.inj (Raw.toInstr?_some hi)
        rw [← hop]
        exact h i s

theorem decodeExecute_congr (s : State) (op : Byte) (latched : List Byte) :
    decodeExecute p run s op latched = decodeExecute p run' s op latched := by
  unfold decodeExecute
  split
  · rfl
  · next o hl => exact operandsExecute_congr h s (OpcodeMap.lookup_some hl) latched

/-- The cycle asks how an instruction runs only with the byte that selects its operation (R87, R90). -/
theorem cycle_congr (s : State) : cycle p run s = cycle p run' s := by
  simp only [cycle, fetchExecute, decodeExecute_congr h]

end CycleCongr

/-- Settles O20: instruction by instruction the two dispatches run one phase, and the cycle around them is the same. -/
theorem stepIsStepWithDefaults : Obligations.StepIsStepWithDefaults :=
  ⟨exec_eq_execOp, cycle_congr fun i s => exec_eq_execOp i s⟩

end Sys2Proof.Machine

/-! PROOFS of the statements of state (10_state.md): a step of the default core against the decoder, what ends an instruction,
and what each instruction writes of the registers, memory, the flags and the output. -/

namespace Sys2Proof.Machine

/-! ### Reset and the invariant -/

theorem defaultOpcodeMap_wellFormed : defaultOpcodeMap.wellFormed = true := by
  simp [OpcodeMap.wellFormed, defaultOpcodeMap_countsAgree, defaultOpcodeMap_controlAgrees, defaultOpcodeMap_distinct]

/-- Settles O27: the default core is the parametric core under a map that R8 allows. -/
theorem stepKeepsInvariant : Obligations.StepKeepsInvariant := by
  intro s t hi h
  rw [stepIsStepWithDefaults.2] at h
  exact stepWithKeepsInvariant defaultParams s t defaultOpcodeMap_wellFormed hi h

/-- Settles O26: no cell is listed, and every field but the registers is 0. -/
theorem resetMeetsInvariant : Obligations.ResetMeetsInvariant where
  mem := rfl
  pc := Nat.zero_le _
  flags := .inl rfl
  haltRec := ⟨nofun, rfl⟩
  fopc := rfl
  fresh := fun _ => rfl

/-- Settles O8, field by field. -/
theorem resetValues : Obligations.ResetValues :=
  ⟨by decide, rfl, rfl, Memory.read_nil, rfl, rfl, rfl⟩

/-! ### A step against the decoder -/

theorem State.fetchBytes_of_le {s : State} (h : s.pc.toNat ≤ 255) :
    s.fetchBytes = s.mem.read s.pc.toNat :: s.mem.window (s.pc.toNat + 1) 2 :=
  if_pos (Nat.lt_succ_of_le h)

theorem State.fetchBytes_of_gt {s : State} (h : 255 < s.pc.toNat) : s.fetchBytes = [] :=
  if_neg (Nat.not_lt.mpr h)

/-- The operand bytes of an instruction pass the register check (R76, R92). -/
theorem firstBadRegister_operandBytes (i : Instr) : firstBadRegister i.op.format i.operandBytes = none := by
  have h : i.raw.wellFormed = true := by simp [← Raw.toInstr?_isSome]
  simp only [Raw.wellFormed, Bool.and_eq_true] at h
  exact (firstBadRegister_none i.raw).mpr h.2

/-- Where a known opcode byte has all its operands in memory, the decoder checks the operands that a step reads (R74, R92). -/
theorem decodeWith_fetchBytes {m : OpcodeMap} {s : State} {o : Op} (hw : m.wellFormed = true) (hpc : s.pc.toNat ≤ 255)
    (hl : m.lookup (s.mem.read s.pc.toNat) = some o) (hin : s.pc.toNat + operandCount (s.mem.read s.pc.toNat) ≤ 255) :
    (∀ i b, firstBadRegister o.format (operandsRead ⟨m, false⟩ s (s.mem.read s.pc.toNat)) = some (i, b) →
      decodeWith m s.fetchBytes = .error (.invalidRegister i b)) ∧
    (∀ i : Instr, i.op = o → operandsRead ⟨m, false⟩ s (s.mem.read s.pc.toNat) = i.operandBytes →
      ∃ rest, decodeWith m s.fetchBytes = .ok (i, rest)) := by
  have hcount := OpcodeMap.operandCount_of_lookup hw hl
  have htwo := o.format.operandCount_le_two
  have hlen : ¬ (s.mem.window (s.pc.toNat + 1) 2).length < operandCount (s.mem.read s.pc.toNat) := by
    rw [Memory.window_length]
    omega
  have htake : (s.mem.window (s.pc.toNat + 1) 2).take (operandCount (s.mem.read s.pc.toNat)) =
      operandsRead ⟨m, false⟩ s (s.mem.read s.pc.toNat) := Memory.window_take _ _ (by omega)
  rw [State.fetchBytes_of_le hpc]
  simp only [decodeWith, hl, if_neg hlen, htake]
  constructor
  · intro i b hb
    simp only [hb]
  · rintro i rfl hops
    have hraw : (Raw.mk i.op i.operandBytes).toInstr? = some i := i.toInstr?_raw
    simp only [hops, firstBadRegister_operandBytes, hraw]
    exact ⟨_, rfl⟩

/-- What a Running core answers where the bytes at pc do not decode (R206 items 1 to 4, R208). -/
def State.undecodable (s : State) : DecodeError → Outcome
  | .noOpcode => .next (s.raise (.outOfBoundsAccess s.pc) none)
  | .unknownOpcode op => .next (s.raise (.unknownOpcode s.pc op) (some op))
  | .missingOperand op => .next (s.raise (.outOfBoundsAccess 256) (some op))
  | .invalidRegister i b => .next (s.raise (.invalidRegister (s.pc + BitVec.ofNat 9 i) b) s.fetchBytes.head?)
  | .opcodeMapInvalid => .refused .opcodeMapInvalid

/-- Under an allowed map and with the default form of operand fetch, a step fails where the decoder does and as it does. -/
theorem stepWith_of_decode_error {m : OpcodeMap} (hw : m.wellFormed = true) {s : State} {e : DecodeError}
    (hr : s.run = .running) (h : decodeWith m s.fetchBytes = .error e) : stepWith ⟨m, false⟩ s = s.undecodable e := by
  have ha := fetchExecute_answer ⟨m, false⟩ execOp s
  rw [stepWith, cycle_of_running hr]
  generalize fetchExecute ⟨m, false⟩ execOp s = out at ha
  cases ha with
  | fetchOut hpc =>
    obtain rfl : _ = e := by simpa [State.fetchBytes_of_gt hpc, decodeWith] using h
    rfl
  | eagerOut _ he => cases he
  | unknown hpc _ hl =>
    obtain rfl : _ = e := by simpa [State.fetchBytes_of_le hpc, decodeWith, hl] using h
    rfl
  | operandOut o hpc _ hl hout =>
    have hmiss : (s.mem.window (s.pc.toNat + 1) 2).length < operandCount (s.mem.read s.pc.toNat) := by
      rw [Memory.window_length]
      omega
    obtain rfl : _ = e := by simpa [State.fetchBytes_of_le hpc, decodeWith, hl, hmiss] using h
    rfl
  | badRegister o i b hpc _ hin hl hb =>
    rw [(decodeWith_fetchBytes hw hpc hl (hin rfl)).1 i b hb] at h
    cases h
    simp [State.undecodable, State.fetchBytes_of_le hpc]
  | badMap o _ he hin hl hne => exact absurd (operandsRead_length (p := ⟨m, false⟩) hw he hin hl) hne
  | runs i hpc _ hin hl hops =>
    obtain ⟨rest, hok⟩ := (decodeWith_fetchBytes hw hpc hl (hin rfl)).2 i rfl hops
    rw [hok] at h
    cases h

/-- Where the bytes at pc decode, a Running core executes the instruction they are (R87, R90). -/
theorem step_of_decode_ok {s : State} {i : Instr} {rest : List Byte} (hr : s.run = .running)
    (h : decode s.fetchBytes = .ok (i, rest)) : step s = exec i s := by
  rw [stepIsStepWithDefaults.2, stepWithRunsDecodedInstruction defaultParams s i rest hr nofun h, exec_eq_execOp]
  rfl

theorem step_of_decode_error {s : State} {e : DecodeError} (hr : s.run = .running)
    (h : decode s.fetchBytes = .error e) : step s = s.undecodable e :=
  (stepIsStepWithDefaults.2 s).trans (stepWith_of_decode_error defaultOpcodeMap_wellFormed hr h)

/-- In Ready and Halted a step answers the state itself (log 1). -/
theorem step_of_not_running {s : State} (hr : s.run ≠ .running) : step s = .next s :=
  cycle_of_not_running hr _ _

/-- A next state for bytes that do not decode is the entry of one fatal condition, and pc and memory determine which. -/
theorem State.undecodable_next {s t : State} {e : DecodeError} (h : s.undecodable e = .next t) :
    ∃ f op, t = s.raise f op ∧
      ∀ s' : State, s'.pc = s.pc → s'.mem = s.mem → s'.undecodable e = .next (s'.raise f op) := by
  cases e with
  | noOpcode | unknownOpcode =>
    cases h
    exact ⟨_, _, rfl, fun s' hpc _ => by rw [State.undecodable, hpc]⟩
  | missingOperand =>
    cases h
    exact ⟨_, _, rfl, fun _ _ _ => rfl⟩
  | invalidRegister =>
    cases h
    exact ⟨_, _, rfl, fun s' hpc hmem => by rw [State.undecodable, State.fetchBytes, hpc, hmem, State.fetchBytes]⟩
  | opcodeMapInvalid => cases h

/-- Everything a step of the default core can be: nothing while the core is not Running, else a fatal condition that every
Running state with this pc and memory takes too, or exec of the instruction at pc. -/
inductive StepForm (s : State) : State → Prop where
  | idle : s.run ≠ .running → StepForm s s
  | faults (f : Fatal) (op : Option Byte) : s.run = .running →
      (∀ s' : State, s'.run = .running → s'.pc = s.pc → s'.mem = s.mem → step s' = .next (s'.raise f op)) →
      StepForm s (s.raise f op)
  | executes {t : State} (i : Instr) (rest : List Byte) : s.run = .running → decode s.fetchBytes = .ok (i, rest) →
      exec i s = .next t → StepForm s t

theorem step_form {s t : State} (h : step s = .next t) : StepForm s t := by
  by_cases hr : s.run = .running
  · cases hd : decode s.fetchBytes with
    | ok ir => exact .executes ir.1 ir.2 hr hd ((step_of_decode_ok hr hd).symm.trans h)
    | error e =>
      obtain ⟨f, op, rfl, hsame⟩ := State.undecodable_next ((step_of_decode_error hr hd).symm.trans h)
      refine .faults f op hr fun s' hr' hpc hmem => ?_
      have hd' : decode s'.fetchBytes = .error e := by rwa [State.fetchBytes, hpc, hmem]
      rw [step_of_decode_error hr' hd', hsame s' hpc hmem]
  · obtain rfl : s = t := by simpa [step_of_not_running hr] using h
    exact .idle hr

/-! ### Halted, and the end of an instruction -/

theorem run_of_halted {s : State} (h : s.run = .halted) (k : Nat) : Sys2Proof.core.run k s = .next s := by
  have hstep : Sys2Proof.core.step s = .next s := step_of_not_running (by simp [h])
  induction k with
  | zero => rfl
  | succ k ih => simpa only [Host.Core.run, hstep] using ih

/-- Settles O31: by induction on the number of steps, and host action by host action. -/
theorem haltedIsTerminal : Obligations.HaltedIsTerminal := by
  refine ⟨fun s k h => run_of_halted h k, fun s act h hact => ?_⟩
  cases act with
  | reset => exact absurd rfl hact
  | loadWr addr data => simp [State.host, State.loadWr, h]
  | start => simp [State.host, State.start, h]

/-- The ways an instruction ends: a fatal condition taken, pc moved past it, or pc as its jump wrote it; and the halt record
is written only on halting (R34, R93, R207). -/
inductive ExecAnswer (i : Instr) (s : State) : State → Prop where
  | faults (f : Fatal) (op : Option Byte) : ExecAnswer i s (s.raise f op)
  | advances {u : State} : phase (defaultOpcodeMap i.op) i s = .done .advance u →
      u.run = .halted ∨ u.haltRec = s.haltRec →
      ExecAnswer i s (u.setPc (s.pc + BitVec.ofNat 9 (operandCount (defaultOpcodeMap i.op) + 1)))
  | jumps {u : State} : phase (defaultOpcodeMap i.op) i s = .done .jumped u → u.haltRec = s.haltRec →
      i.op.controlsPc = true → u.pc.toNat ≤ 255 → ExecAnswer i s u

theorem exec_answer {i : Instr} {s t : State} (h : exec i s = .next t) : ExecAnswer i s t := by
  have ha := phase_answer (defaultOpcodeMap i.op) i s
  rw [exec_eq_execOp, execOp] at h
  generalize hp : phase (defaultOpcodeMap i.op) i s = ph at h ha
  cases ha with
  | halts =>
    cases h
    exact .advances hp (.inl rfl)
  | dividesByZero | callsOut =>
    cases h
    exact .faults _ _
  | advances hu =>
    obtain rfl : _ = t := by simpa using h
    exact .advances hp (.inr hu.haltRec)
  | jumps hu hc htarget =>
    rw [finish_jumped ((OpcodeMap.control_of_wellFormed defaultOpcodeMap_wellFormed i.op).trans hc)] at h
    cases h
    exact .jumps hp hu.haltRec hc htarget

/-- Settles O32: of the ends of a step, only those that halt change the record. -/
theorem haltRecordWrittenOnHalt : Obligations.HaltRecordWrittenOnHalt := by
  intro s t h hne
  cases step_form h with
  | idle => exact absurd rfl hne
  | faults f op hr => exact ⟨hr, rfl⟩
  | executes i rest hr _ hx =>
    refine ⟨hr, ?_⟩
    cases exec_answer hx with
    | faults => rfl
    | advances _ hu => exact hu.resolve_right hne
    | jumps _ hrec => exact absurd hrec hne

/-- Settles O49: each end of a step is one of the statement's. -/
theorem pcChangesInTwoWays : Obligations.PcChangesInTwoWays := by
  intro s t h
  cases step_form h with
  | idle hr => exact .inl ⟨rfl, .inl hr⟩
  | faults => exact .inl ⟨rfl, .inr rfl⟩
  | executes i rest _ hd hx =>
    cases exec_answer hx with
    | faults => exact .inl ⟨rfl, .inr rfl⟩
    | advances hp => exact .inr ⟨i, rest, _, hd, .inl ⟨hp, rfl⟩⟩
    | jumps hp _ hc htarget => exact .inr ⟨i, rest, _, hd, .inr ⟨hp, hc, rfl, htarget⟩⟩

/-! ### The next state of the instructions that load, store or decide -/

section ExecEquations

variable (a b : Reg) (s : State)

theorem exec_div : exec (.div a b) s = .next (if s.reg b = 0 then s.raise .divisionByZero (some 0xA3)
    else (s.setReg a (aluDiv (s.reg a) (s.reg b))).setPc (s.pc + 3)) := by
  rw [exec, execDiv, divPhase]
  split <;> rfl

theorem exec_push : exec (.push a) s =
    .next ((s.decSp.setMem (s.mem.write s.decSp.sp.toNat (s.decSp.reg a))).setPc (s.pc + 2)) := by
  rw [exec, execPush, pushPhase_eq]
  rfl

theorem exec_pop : exec (.pop a) s = .next ((s.setReg a (s.mem.read s.sp.toNat)).incSp.setPc (s.pc + 2)) := by
  rw [exec, execPop, popPhase_eq]
  rfl

theorem exec_call : exec (.call a) s = .next (if 253 < s.pc.toNat
    then s.raise (.outOfBoundsAccess (BitVec.ofNat 9 (s.pc.toNat + 2))) (some 0x50)
    else (s.decSp.setMem (s.mem.write s.decSp.sp.toNat (BitVec.ofNat 8 (s.pc.toNat + 2)))).setPc
      (zext (s.decSp.reg a))) := by
  rw [exec, execCall]
  split
  · rw [callPhase_of_gt a ‹_›]
    rfl
  · rw [callPhase_of_le a (by omega)]
    rfl

theorem exec_ret : exec .ret s = .next (s.incSp.setPc (zext (s.mem.read s.sp.toNat))) := by
  rw [exec, execRet, retPhase_eq]
  rfl

theorem exec_jeq : exec (.jeq a) s = .next (s.setPc (if s.flagE then zext (s.reg a) else s.pc + 2)) := by
  rw [exec, execJeq, jeqPhase]
  split <;> rfl

theorem exec_jne : exec (.jne a) s = .next (s.setPc (if s.flagE then s.pc + 2 else zext (s.reg a))) := by
  rw [exec, execJne, jnePhase]
  split <;> rfl

end ExecEquations

/-! ### Registers and memory -/

theorem State.reg_setReg_of_beq {s : State} {a r : Reg} (h : (r == a) = false) (v : Byte) :
    (s.setReg a v).reg r = s.reg r := by
  rw [State.reg_setReg, if_neg (beq_eq_false_iff_ne.mp h).symm]

theorem Memory.read_write_of_ne {a x : Nat} (h : a ≠ x) (m : Memory) (v : Byte) :
    (m.write a v).read x = m.read x := by
  rw [Memory.read_write, if_neg h]

/-- The registers and the bytes of memory that an instruction leaves (R26, R56). -/
structure Leaves (i : Instr) (s t : State) : Prop where
  reg : ∀ r : Reg, writesRegister i r = false → t.reg r = s.reg r
  mem : ∀ x : Nat, storesTo i s ≠ some x → t.mem.read x = s.mem.read x

theorem exec_leaves {i : Instr} {s t : State} (h : exec i s = .next t) : Leaves i s t := by
  cases i with
  | prn | cmp | jmp | hlt =>
    cases h
    exact ⟨fun _ _ => rfl, fun _ _ => rfl⟩
  | ldi | add | sub | mul | and | or | xor =>
    cases h
    exact ⟨fun _ hr => State.reg_setReg_of_beq hr _, fun _ _ => rfl⟩
  | div a b =>
    cases (exec_div a b s).symm.trans h
    split
    · exact ⟨fun _ _ => rfl, fun _ _ => rfl⟩
    · exact ⟨fun _ hr => State.reg_setReg_of_beq hr _, fun _ _ => rfl⟩
  | push a =>
    cases (exec_push a s).symm.trans h
    exact ⟨fun _ hr => State.reg_setReg_of_beq hr _, fun _ hx => Memory.read_write_of_ne (mt (congrArg some) hx) _ _⟩
  | pop a =>
    cases (exec_pop a s).symm.trans h
    refine ⟨fun _ hr => ?_, fun _ _ => rfl⟩
    obtain ⟨ha, h7⟩ := Bool.or_eq_false_iff.mp hr
    exact (State.reg_setReg_of_beq h7 _).trans (State.reg_setReg_of_beq ha _)
  | call a =>
    cases (exec_call a s).symm.trans h
    split
    · exact ⟨fun _ _ => rfl, fun _ _ => rfl⟩
    · exact ⟨fun _ hr => State.reg_setReg_of_beq hr _, fun _ hx => Memory.read_write_of_ne (mt (congrArg some) hx) _ _⟩
  | ret =>
    cases (exec_ret s).symm.trans h
    exact ⟨fun _ hr => State.reg_setReg_of_beq hr _, fun _ _ => rfl⟩
  | jeq a =>
    cases (exec_jeq a s).symm.trans h
    exact ⟨fun _ _ => rfl, fun _ _ => rfl⟩
  | jne a =>
    cases (exec_jne a s).symm.trans h
    exact ⟨fun _ _ => rfl, fun _ _ => rfl⟩

/-- Settles O52: a byte is left unless it is the one stored to. -/
theorem frameOfEveryInstruction : Obligations.FrameOfEveryInstruction := by
  intro i s t h
  obtain ⟨hreg, hmem⟩ := exec_leaves h
  refine ⟨hreg, fun x hnone => hmem x ?_, fun addr haddr x hx => hmem x ?_⟩
  · simp [hnone]
  · simpa [haddr] using hx.symm

/-! ### Flags and output -/

/-- The bytes an instruction emits: PRN alone emits (R101). -/
def emitted : Instr → State → List Byte
  | .prn a, s => [s.reg a]
  | _, _ => []

/-- The value an instruction writes to fl, if any: CMP alone writes it (R30, R127). -/
def flagsWritten : Instr → State → Option Byte
  | .cmp a b, s => some (compareBytes (s.reg a) (s.reg b)).toByte
  | _, _ => none

theorem emitted_of_not_prn {i : Instr} (h : ∀ a, i ≠ .prn a) (s : State) : emitted i s = [] := by
  unfold emitted
  split
  · exact absurd rfl (h _)
  · rfl

theorem flagsWritten_of_not_cmp {i : Instr} (h : ∀ a b, i ≠ .cmp a b) (s : State) : flagsWritten i s = none := by
  unfold flagsWritten
  split
  · exact absurd rfl (h _ _)
  · rfl

/-- The state with another flags register and another output. -/
def State.withFlOut (s : State) (f : Byte) (o : List Byte) : State := { s with fl := f, out := o }

@[simp] theorem State.withFlOut_pc (s : State) (f : Byte) (o : List Byte) : (s.withFlOut f o).pc = s.pc := rfl
@[simp] theorem State.withFlOut_reg (s : State) (f : Byte) (o : List Byte) (r : Reg) :
    (s.withFlOut f o).reg r = s.reg r := rfl

/-- Of fl and the output, an instruction reads E alone: with another output and other flags of the same E it does the same,
emits the same bytes, and leaves fl or writes the same value to it (R31, R32). -/
theorem exec_withFlOut {i : Instr} {s t : State} (h : exec i s = .next t) {f : Byte} {o : List Byte}
    (hf : (s.withFlOut f o).flagE = s.flagE) :
    exec i (s.withFlOut f o) = .next (t.withFlOut ((flagsWritten i s).getD f) (o ++ emitted i s)) := by
  cases i with
  | prn a =>
    cases h
    rfl
  | div a b =>
    cases (exec_div a b s).symm.trans h
    by_cases hb : s.reg b = 0 <;>
      (simp only [exec_div, State.withFlOut_reg, hb, if_true, if_false, emitted, List.append_nil]; rfl)
  | push a =>
    cases (exec_push a s).symm.trans h
    simp only [exec_push, emitted, List.append_nil]
    rfl
  | pop a =>
    cases (exec_pop a s).symm.trans h
    simp only [exec_pop, emitted, List.append_nil]
    rfl
  | call a =>
    cases (exec_call a s).symm.trans h
    by_cases hpc : 253 < s.pc.toNat <;>
      (simp only [exec_call, State.withFlOut_pc, hpc, if_true, if_false, emitted, List.append_nil]; rfl)
  | ret =>
    cases (exec_ret s).symm.trans h
    simp only [exec_ret, emitted, List.append_nil]
    rfl
  | jeq a =>
    cases (exec_jeq a s).symm.trans h
    simp only [exec_jeq, hf, emitted, List.append_nil]
    rfl
  | jne a =>
    cases (exec_jne a s).symm.trans h
    simp only [exec_jne, hf, emitted, List.append_nil]
    rfl
  | _ =>
    cases h
    simp only [emitted, List.append_nil]
    rfl

theorem exec_fl_out {i : Instr} {s t : State} (h : exec i s = .next t) :
    t.fl = (flagsWritten i s).getD s.fl ∧ t.out = s.out ++ emitted i s := by
  have hself : exec i s = .next (t.withFlOut ((flagsWritten i s).getD s.fl) (s.out ++ emitted i s)) :=
    exec_withFlOut (o := s.out) h rfl
  have ht := Host.Outcome.next.inj (h.symm.trans hself)
  exact ⟨congrArg State.fl ht, congrArg State.out ht⟩

theorem exec_fl_of_not_cmp {i : Instr} {s t : State} (h : exec i s = .next t) (hi : ∀ a b, i ≠ .cmp a b) :
    t.fl = s.fl := by
  rw [(exec_fl_out h).1, flagsWritten_of_not_cmp hi, Option.getD_none]

/-- A step reads of fl and the output no more than an instruction does: it emits bytes and writes fl, or leaves it, in the same
way from every state that differs only in the output and in flags of the same E (R31, R32). -/
theorem step_withFlOut {s t : State} (h : step s = .next t) :
    ∃ (written : Option Byte) (more : List Byte), t.fl = written.getD s.fl ∧ t.out = s.out ++ more ∧
      ∀ (f : Byte) (o : List Byte), (s.withFlOut f o).flagE = s.flagE →
        step (s.withFlOut f o) = .next (t.withFlOut (written.getD f) (o ++ more)) := by
  cases step_form h with
  | idle hr =>
    refine ⟨none, [], rfl, (List.append_nil _).symm, fun f o _ => ?_⟩
    rw [List.append_nil]
    exact step_of_not_running hr
  | faults c op hr hsame =>
    refine ⟨none, [], rfl, (List.append_nil _).symm, fun f o _ => ?_⟩
    rw [List.append_nil]
    exact hsame (s.withFlOut f o) hr rfl rfl
  | executes i rest hr hd hx =>
    obtain ⟨hfl, hout⟩ := exec_fl_out hx
    exact ⟨flagsWritten i s, emitted i s, hfl, hout, fun f o hf =>
      (step_of_decode_ok (s := s.withFlOut f o) hr hd).trans (exec_withFlOut hx hf)⟩

/-- Settles O51: the step with other flags of the same E and the same output. -/
theorem greaterAndLessUnread : Obligations.GreaterAndLessUnread := by
  refine ⟨fun s t f hf h => ?_, fun _ _ => ⟨rfl, rfl⟩, fun s hr => ⟨s, ?_, rfl, rfl⟩⟩
  · obtain ⟨written, more, hfl, hout, hstep⟩ := step_withFlOut h
    refine ⟨written.getD f, ?_, ?_⟩
    · refine (hstep f s.out hf).trans ?_
      rw [← hout]
      rfl
    · cases written with
      | none => exact .inl rfl
      | some g => exact .inr hfl.symm
  · cases hs : s.run with
    | running => exact absurd hs hr
    | ready | halted => simp [State.readout, hs]

/-- Settles O50: what each instruction emits, and the step with another output and the same flags. -/
theorem outputOnlyAppendedByPrn : Obligations.OutputOnlyAppendedByPrn := by
  refine ⟨rfl, fun a s t h => (exec_fl_out h).2, fun i s t hi h => ?_, fun s t o h => ?_⟩
  · rw [(exec_fl_out h).2, emitted_of_not_prn hi, List.append_nil]
  · obtain ⟨written, more, hfl, hout, hstep⟩ := step_withFlOut h
    refine ⟨more, hout, (hstep s.fl o rfl).trans ?_⟩
    rw [← hfl]
    rfl

/-- The flags byte of a comparison has one of E, G and L set (R29, R127). -/
theorem FlagState.toByte_flags (f : FlagState) :
    (f.toByte.getLsbD 0 = true ∧ f.toByte.getLsbD 1 = false ∧ f.toByte.getLsbD 2 = false) ∨
    (f.toByte.getLsbD 0 = false ∧ f.toByte.getLsbD 1 = true ∧ f.toByte.getLsbD 2 = false) ∨
    (f.toByte.getLsbD 0 = false ∧ f.toByte.getLsbD 1 = false ∧ f.toByte.getLsbD 2 = true) := by
  cases f <;> decide

/-- Its bits 7:3 are 0 (R29). -/
theorem FlagState.toByte_high (f : FlagState) {n : Nat} (hn : 3 ≤ n) : f.toByte.getLsbD n = false := by
  have hlt : f.toByte.toNat < 2 ^ 3 := by cases f <;> decide
  exact Nat.testBit_lt_two_pow (hlt.trans_le (Nat.pow_le_pow_right two_pos hn))

/-- Settles O45: only CMP writes fl, and what it writes is the flags byte of a comparison. -/
theorem onlyCmpWritesFlags : Obligations.OnlyCmpWritesFlags := by
  refine ⟨rfl, fun i s t h hi => exec_fl_of_not_cmp h hi, fun s t h hne => ?_, fun a b s t h => ?_⟩
  · cases step_form h with
    | idle => exact absurd rfl hne
    | faults => exact absurd rfl hne
    | executes i rest _ hd hx =>
      by_contra hno
      exact hne (exec_fl_of_not_cmp hx fun a b hi => hno ⟨a, b, rest, hi ▸ hd⟩)
  · have hfl : t.fl = (compareBytes (s.reg a) (s.reg b)).toByte := (exec_fl_out h).1
    simp only [State.flagE, State.flagG, State.flagL, hfl]
    exact ⟨FlagState.toByte_flags _, fun n hn => FlagState.toByte_high _ hn⟩

end Sys2Proof.Machine

/-! PROOFS of the statements of memory (20_memory.md): the port's two sides, and a stored byte in the bytes of the next fetch. -/

namespace Sys2Proof.Machine

/-! ### The memory port -/

theorem Memory.portWrite_of_gt {m : Memory} {a : Addr} (h : 255 < a.toNat) (v : Byte) :
    m.portWrite a v = .error (.outOfBoundsAccess a) :=
  if_pos h

/-- Settles O15: the port's answer on each side of 255, and read after write. -/
theorem memoryPort : Obligations.MemoryPort := by
  refine ⟨fun m a h => ⟨Memory.portRead_of_gt h, Memory.portWrite_of_gt h⟩, fun m a h => Memory.portRead_of_le h,
    fun m a v h => ⟨m.write a.toNat v, Memory.portWrite_of_le h v, ?_, fun b hb => ?_⟩⟩
  · rw [Memory.read_write, if_pos rfl]
  · exact Memory.read_write_of_ne hb.symm m v

/-! ### A stored byte and the next fetch -/

/-- A window is the cells of its addresses that lie in memory (R54). -/
theorem Memory.window_eq_map (m : Memory) (a n : Nat) :
    m.window a n = ((List.range' a n).filter fun x => decide (x < 256)).map m.read := by
  induction n generalizing a with
  | zero => rfl
  | succ n ih =>
    rw [Memory.window_succ]
    split
    · rw [ih, List.range'_succ, List.filter_cons_of_pos (by simpa), List.map_cons]
    · have hout : ((List.range' a (n + 1)).filter fun x => decide (x < 256)) = [] := by
        simp only [List.filter_eq_nil_iff, List.mem_range'_1, decide_eq_true_eq]
        omega
      rw [hout, List.map_nil]

/-- A fetch after a store of v at addr reads v there and the other cells as they were, wherever pc is (R63, R239). -/
theorem State.fetchBytes_of_store {s t : State} {addr : Nat} {v : Byte} (hmem : t.mem = s.mem.write addr v) :
    t.fetchBytes = bytesAfterStore s addr v t.pc.toNat := by
  simp only [State.fetchBytes, Memory.window_eq_map, hmem, bytesAfterStore]
  refine List.map_congr_left fun x _ => ?_
  simp only [Memory.read_write, eq_comm]

/-- Bytes that begin with no opcode do not decode, whatever follows (R83, R89). -/
theorem decode_of_lookup_none {bytes : List Byte} {b : Byte} (hb : bytes.head? = some b)
    (hl : defaultOpcodeMap.lookup b = none) : decode bytes = .error (.unknownOpcode b) := by
  obtain ⟨more, rfl⟩ := List.head?_eq_some_iff.mp hb
  simp only [decode, decodeWith, hl]

/-- A Running core whose memory is that of s after a store at the decremented SP sees the stored byte. -/
theorem seesStore_of_store {s t : State} {v : Byte} (hr : t.run = .running)
    (hmem : t.mem = s.mem.write s.decSp.sp.toNat v) : SeesStore s t v := by
  have hfetch := State.fetchBytes_of_store hmem
  refine ⟨hfetch, fun j rest hd => ?_, fun b hb hl => ?_⟩
  · exact step_of_decode_ok hr (hfetch ▸ hd)
  · exact step_of_decode_error hr (hfetch ▸ decode_of_lookup_none hb hl)

/-- Settles O56: both instructions end with their byte stored at the decremented SP, and the next fetch reads that memory. -/
theorem storeSeenByNextFetch : Obligations.StoreSeenByNextFetch := by
  intro s a rest hr
  refine ⟨fun hd => ?push, fun hd hpc => ?call⟩
  case push =>
    exact ⟨_, (step_of_decode_ok hr hd).trans (exec_push a s), hr, rfl, seesStore_of_store hr rfl⟩
  case call =>
    have hcall := exec_call a s
    rw [if_neg (by omega)] at hcall
    exact ⟨_, (step_of_decode_ok hr hd).trans hcall, hr, rfl, seesStore_of_store hr rfl⟩

end Sys2Proof.Machine

/-! PROOFS of the statements of encoding (30_encoding.md): the decoder against the encoder, the fields of the opcode byte in
every allowed map, what the execute phase returns, and the step's answers. -/

namespace Sys2Proof

/-! ### Decode and encode -/

/-- The decoder reads back an encoding and stops at its end (R70, R74, R75). -/
theorem decodeWith_encodeWith {m : OpcodeMap} (hw : m.wellFormed = true) (i : Instr) (rest : List Byte) :
    decodeWith m (encodeWith m i ++ rest) = .ok (i, rest) := by
  have hcount : i.operandBytes.length = operandCount (m i.op) :=
    i.operandBytes_length.trans (m.count_of_wellFormed hw i.op).symm
  have henough : ¬ (i.operandBytes ++ rest).length < operandCount (m i.op) := by
    rw [List.length_append]
    omega
  have hraw : (Raw.mk i.op i.operandBytes).toInstr? = some i := i.toInstr?_raw
  simp only [encodeWith, List.cons_append, decodeWith, OpcodeMap.lookup_self hw, if_neg henough,
    List.take_left' hcount, List.drop_left' hcount, Machine.firstBadRegister_operandBytes, hraw]

/-- Settles O1: the default map is one of the allowed ones. -/
theorem decodeOfEncode : Obligations.DecodeOfEncode :=
  ⟨fun _ hw => decodeWith_encodeWith hw, decodeWith_encodeWith Machine.defaultOpcodeMap_wellFormed⟩

/-- Settles O2: the opcode byte is the operation's, and the bytes taken as operands are the instruction's operand bytes. -/
theorem encodeOfDecode : Obligations.EncodeOfDecode := by
  intro m bytes i rest h
  obtain ⟨op, more, rfl, hl, -, -, hops, rfl⟩ := decodeWith_ok h
  rw [encodeWith, OpcodeMap.lookup_some hl, ← hops, List.cons_append, List.take_append_drop]

/-- Settles O3: the opcode byte is followed by at least its operand count of bytes, and the rest drops just those. -/
theorem lengthFromOpcodeByte : Obligations.LengthFromOpcodeByte := by
  intro m op more i rest h
  obtain ⟨op', more', hbytes, -, hlen, -, -, rfl⟩ := decodeWith_ok h
  obtain ⟨rfl, rfl⟩ := List.cons.inj hbytes
  refine ⟨?_, rfl⟩
  rw [List.length_cons, List.length_drop]
  omega

/-- Settles O7: seven of the words are encodings, and of the other two one has a bad register and one a byte not in the map. -/
theorem specWordsDecode : Obligations.SpecWordsDecode :=
  have word := decodeOfEncode.2
  ⟨word (.ldi 0 8) [], word (.prn 7) [], word (.sub 2 5) [], word (.pop 1) [0xFF], word (.call 4) [], word .ret [],
    word .hlt [], by decide, by decide⟩

/-! ### The fields of the opcode byte -/

/-- Settles O5: no format has three operands, so no operation's byte counts three. -/
theorem countBitsOfEveryMap : Obligations.CountBitsOfEveryMap := by
  refine ⟨Machine.defaultOpcodeMap_wellFormed, fun m hw => ⟨m.count_of_wellFormed hw, fun b hb => ?_⟩⟩
  cases hl : m.lookup b with
  | none => rfl
  | some o =>
    have hcount := OpcodeMap.operandCount_of_lookup hw hl
    have htwo := o.format.operandCount_le_two
    omega

/-- Settles O4: bit 4 is the operation's own controls_pc, operation by operation. -/
theorem controlBitExactlyForFive : Obligations.ControlBitExactlyForFive := by
  intro m hw o
  have hbit : controlsPc (m o) = o.controlsPc := m.control_of_wellFormed hw o
  rw [hbit]
  cases o <;> decide

/-- A byte selects an operation exactly when it is one of the map's bytes (R80, R83). -/
theorem OpcodeMap.lookup_isSome_iff {m : OpcodeMap} {b : Byte} : (m.lookup b).isSome = true ↔ ∃ o, m o = b := by
  simp [OpcodeMap.lookup, Op.mem_all]

/-- No byte of an allowed map selects two operations (R80, R90). -/
theorem OpcodeMap.injective_of_wellFormed {m : OpcodeMap} (hw : m.wellFormed = true) : Function.Injective m :=
  fun o q h => by simpa [OpcodeMap.lookup_self hw] using congrArg m.lookup h

/-- The byte values that select an operation are the bytes of the 18 operations, none of them given twice (R80). -/
theorem OpcodeMap.known_perm {m : OpcodeMap} (hw : m.wellFormed = true) :
    ((List.range 256).filter fun n => (m.lookup (BitVec.ofNat 8 n)).isSome).Perm (Op.all.map fun o => (m o).toNat) := by
  have hall : Op.all.Nodup := by decide
  have hnodup : (Op.all.map fun o => (m o).toNat).Nodup :=
    hall.map fun _ _ h => OpcodeMap.injective_of_wellFormed hw (BitVec.eq_of_toNat_eq h)
  refine (List.perm_ext_iff_of_nodup (List.nodup_range.filter _) hnodup).mpr fun n => ?_
  simp only [List.mem_filter, List.mem_range, OpcodeMap.lookup_isSome_iff, List.mem_map, Op.mem_all, true_and]
  constructor
  · rintro ⟨hn, o, ho⟩
    exact ⟨o, by rw [ho, BitVec.toNat_ofNat, Nat.mod_eq_of_lt hn]⟩
  · rintro ⟨o, rfl⟩
    exact ⟨(m o).isLt, o, by simp⟩

/-- Every allowed map leaves 238 byte values unknown (R83). -/
theorem OpcodeMap.unknown_length {m : OpcodeMap} (hw : m.wellFormed = true) :
    ((List.range 256).filter fun n => (m.lookup (BitVec.ofNat 8 n)).isNone).length = 238 := by
  have hknown := (OpcodeMap.known_perm hw).length_eq
  have htotal := List.length_eq_length_filter_add (l := List.range 256) fun n => (m.lookup (BitVec.ofNat 8 n)).isSome
  have hops : Op.all.length = 18 := rfl
  simp only [Option.not_isSome, List.length_range, List.length_map] at hknown htotal
  omega

/-- Settles O6: the default map is allowed, and none of its bytes is 0. -/
theorem unknownOpcodeBytes : Obligations.UnknownOpcodeBytes :=
  ⟨OpcodeMap.unknown_length Machine.defaultOpcodeMap_wellFormed, by decide⟩

end Sys2Proof

namespace Sys2Proof.Machine

/-! ### What the execute phase returns -/

/-- A phase that jumps under a condition and else advances: Jumped says the condition held, and pc is the register; Advance
leaves pc (R94). -/
theorem conditionalJump_flow {taken : Prop} [Decidable taken] {a : Reg} {s t : State} {flow : Flow}
    (h : (if taken then jumpTo a s else .done .advance s) = .done flow t) :
    (flow = .jumped ↔ taken) ∧ (flow = .jumped → t.pc = zext (s.reg a)) ∧ (flow = .advance → t.pc = s.pc) := by
  split at h
  case isTrue htaken =>
    cases h
    exact ⟨iff_of_true rfl htaken, fun _ => rfl, nofun⟩
  case isFalse hleft =>
    cases h
    exact ⟨iff_of_false nofun hleft, nofun, fun _ => rfl⟩

/-- JNE jumps where fl.E is 0 and else advances (R164). -/
theorem jnePhase_eq (a : Reg) (s : State) :
    jnePhase a s = if s.flagE = false then jumpTo a s else .done .advance s := by
  rw [jnePhase]
  cases s.flagE <;> rfl

/-- A CALL that raises nothing returns Jumped (R94, R160). -/
theorem callPhase_flow {a : Reg} {s t : State} {flow : Flow} (h : callPhase a s = .done flow t) : flow = .jumped := by
  by_cases hpc : s.pc.toNat ≤ 253
  · rw [callPhase_of_le a hpc] at h
    cases h
    rfl
  · rw [callPhase_of_gt a (by omega)] at h
    cases h

/-- An instruction without controls_pc returns Advance and leaves pc (R94). -/
theorem phase_advances {op : Byte} {i : Instr} {s t : State} {flow : Flow} (h : phase op i s = .done flow t)
    (hc : i.op.controlsPc = false) : flow = .advance ∧ t.pc = s.pc := by
  have ha := phase_answer op i s
  rw [h] at ha
  cases ha with
  | halts => exact ⟨rfl, rfl⟩
  | advances _ hpc => exact ⟨rfl, hpc⟩
  | jumps _ hc' => simp [hc] at hc'

/-- Settles O48: the jumps one by one, every other instruction by what an execute phase can answer. -/
theorem executePhaseFlow : Obligations.ExecutePhaseFlow := by
  intro op i s t flow h
  refine ⟨phase_advances h, ?_, ?_, ?_⟩
  · rintro (⟨a, rfl⟩ | ⟨a, rfl⟩ | rfl)
    · cases h
      rfl
    · exact callPhase_flow h
    · cases (retPhase_eq s).symm.trans h
      rfl
  · rintro a rfl
    exact conditionalJump_flow h
  · rintro a rfl
    exact conditionalJump_flow ((jnePhase_eq a s).symm.trans h)

/-! ### The step -/

/-- Under a map that R8 allows every step answers a next state: the refusal `opcodeMapInvalid` never arises. -/
theorem stepWith_next {p : Params} (hw : p.opcodeMap.wellFormed = true) (s : State) : ∃ t, stepWith p s = .next t := by
  rw [stepWith]
  by_cases hr : s.run = .running
  · have ha := fetchExecute_answer p execOp s
    rw [cycle_of_running hr]
    generalize fetchExecute p execOp s = out at ha
    cases ha with
    | badMap o _ he hin hl hne => exact absurd (operandsRead_length hw he hin hl) hne
    | runs i => exact finish_next _ s _
    | fetchOut | eagerOut | unknown | operandOut | badRegister => exact ⟨_, rfl⟩
  · exact ⟨s, cycle_of_not_running hr _ _⟩

/-- Settles O17: the default core is the parametric core under a map that R8 allows. -/
theorem stepAlwaysAnswers : Obligations.StepAlwaysAnswers := by
  intro s
  rw [stepIsStepWithDefaults.2]
  exact stepWith_next defaultOpcodeMap_wellFormed s

/-- Settles O16: the cycle looks at run before it fetches. -/
theorem noStepUnlessRunning : Obligations.NoStepUnlessRunning :=
  fun _ => step_of_not_running

/-- Settles O18: the decoder's answer at pc leaves a Running core only the execute phase. -/
theorem stepRunsDecodedInstruction : Obligations.StepRunsDecodedInstruction :=
  fun _ _ _ => step_of_decode_ok

/-! ### The two forms of operand fetch -/

/-- With the eager form a fetch at 254 or 255 reads at 256, before the opcode byte is looked up (R91, D7). -/
theorem stepWith_eager_of_top {m : OpcodeMap} {s : State} (hr : s.run = .running) (hlo : 253 < s.pc.toNat)
    (hhi : s.pc.toNat ≤ 255) :
    stepWith ⟨m, true⟩ s = .next (s.raise (.outOfBoundsAccess 256) (some (s.mem.read s.pc.toNat))) := by
  have hread : s.mem.portReadMany (s.pc + 1) 2 = .error (.outOfBoundsAccess 256) := by
    have hnext := addr_succ_toNat (a := s.pc) (by omega)
    exact Memory.portReadMany_error _ (by omega) (by omega)
  simp only [stepWith, cycle_of_running hr, fetchExecute, Memory.portRead_of_le hhi, if_true, hread]

/-- Where the two bytes after the opcode are in memory, the operands latched early are those read at need (R91). -/
theorem operandsExecute_eager {m : OpcodeMap} {s : State} (hpc : s.pc.toNat ≤ 253) {op : Byte} (hcount : operandCount op ≤ 2)
    (run : Byte → Instr → State → Outcome) (o : Op) (latched : List Byte) :
    operandsExecute ⟨m, true⟩ run s op o (s.mem.window (s.pc.toNat + 1) 2) =
      operandsExecute ⟨m, false⟩ run s op o latched := by
  have hnext := addr_succ_toNat (a := s.pc) (by omega)
  have hread := s.mem.portReadMany_ok (a := s.pc + 1) (n := operandCount op) (by omega)
  simp only [operandsExecute, if_true, Bool.false_eq_true, if_false, hread, hnext, Memory.window_take _ _ hcount]

/-- So a core under an allowed map takes one step in both forms, the unknown opcodes included. -/
theorem fetchExecute_eager {m : OpcodeMap} (hw : m.wellFormed = true) {s : State} (hpc : s.pc.toNat ≤ 253)
    (run : Byte → Instr → State → Outcome) : fetchExecute ⟨m, true⟩ run s = fetchExecute ⟨m, false⟩ run s := by
  have hnext := addr_succ_toNat (a := s.pc) (by omega)
  have hread := s.mem.portReadMany_ok (a := s.pc + 1) (n := 2) (by omega)
  simp only [fetchExecute, Memory.portRead_of_le (show s.pc.toNat ≤ 255 by omega), if_true, Bool.false_eq_true, if_false,
    hread, hnext, decodeExecute]
  cases hl : m.lookup (s.mem.read s.pc.toNat) with
  | none => rfl
  | some o =>
    have hcount : operandCount (s.mem.read s.pc.toNat) ≤ 2 :=
      OpcodeMap.operandCount_of_lookup hw hl ▸ o.format.operandCount_le_two
    exact operandsExecute_eager hpc hcount run o []

/-- Settles O25: pc is at the top, or it leaves room for both operand bytes, or the opcode fetch itself fails. -/
theorem eagerFetchDiffersOnlyAtTop : Obligations.EagerFetchDiffersOnlyAtTop := by
  intro m s hw hr
  refine ⟨fun htop => stepWith_eager_of_top hr (by omega) (by omega), fun h254 h255 => ?_⟩
  rw [stepWith, stepWith, cycle_of_running hr, cycle_of_running hr]
  by_cases hpc : s.pc.toNat ≤ 253
  · exact fetchExecute_eager hw hpc execOp
  · simp only [fetchExecute, Memory.portRead_of_gt (show 255 < s.pc.toNat by omega)]

end Sys2Proof.Machine

/-! PROOFS of the statements of load-immediate and output (40_load_output.md): the next state of LDI and of PRN. -/

namespace Sys2Proof.Machine

/-- LDI's rule, then Advance past its three bytes (R93, R100). -/
theorem exec_ldi (a : Reg) (imm : Byte) (s : State) :
    exec (.ldi a imm) s = .next ((s.setReg a imm).setPc (s.pc + 3)) :=
  finish_advance (defaultOpcodeMap .ldi) s (s.setReg a imm)

/-- PRN's rule, then Advance past its two bytes (R93, R101). -/
theorem exec_prn (a : Reg) (s : State) : exec (.prn a) s = .next ((s.emit (s.reg a)).setPc (s.pc + 2)) :=
  finish_advance (defaultOpcodeMap .prn) s (s.emit (s.reg a))

/-- Settles O33: the next state is a register write and a pc write, and the register file's cells are independent. -/
theorem ldiResult : Obligations.LdiResult := by
  intro a imm s
  refine ⟨_, exec_ldi a imm s, ?_, fun r hr => ?_, rfl, rfl, fun _ => rfl, rfl, rfl, rfl⟩
  · rw [State.reg_setPc, State.reg_setReg, if_pos rfl]
  · rw [State.reg_setPc, State.reg_setReg, if_neg hr.symm]

/-- Settles O34: the next state is an emission and a pc write. -/
theorem prnResult : Obligations.PrnResult :=
  fun a s => ⟨_, exec_prn a s, rfl, fun _ => rfl, rfl, rfl, fun _ => rfl, rfl, rfl⟩

end Sys2Proof.Machine

/-! PROOFS of the statements of the ALU (41_alu.md): the one next state of the operations that write a register, what each
puts there, and the flags of a comparison. -/

namespace Sys2Proof.Machine

/-! ### The operations that write a register -/

/-- What an ALU operation leaves in register A, from the values of A and B: DIV by 0 leaves A (R120 to R126). -/
def aluResult : Op → Byte → Byte → Byte
  | .add, x, y => aluAdd x y
  | .sub, x, y => aluSub x y
  | .mul, x, y => aluMul x y
  | .div, x, y => if y = 0 then x else aluDiv x y
  | .and, x, y => aluAnd x y
  | .or, x, y => aluOr x y
  | .xor, x, y => aluXor x y
  | _, x, _ => x

/-- Register A written, and Advance past the three bytes of an ALU instruction (R93, R129). -/
def State.aluNext (s : State) (a : Reg) (v : Byte) : State := (s.setReg a v).setPc (s.pc + 3)

@[simp] theorem State.reg_aluNext (s : State) (a : Reg) (v : Byte) : (s.aluNext a v).reg a = v := by
  rw [State.aluNext, State.reg_setPc, State.reg_setReg, if_pos rfl]

theorem State.aluNext_leaves (s : State) (a : Reg) (v : Byte) : AluLeaves a s (s.aluNext a v) := by
  refine ⟨fun r hr => ?_, rfl, rfl, fun _ => rfl, rfl, rfl, rfl⟩
  rw [State.aluNext, State.reg_setPc, State.reg_setReg, if_neg hr.symm]

/-- Every ALU instruction that raises nothing writes its operation's result to register A (R128, R129). -/
theorem exec_alu {i : Instr} {a b : Reg} {s : State} (hi : aluOperands i = some (a, b))
    (hdiv : i.op = .div → s.reg b ≠ 0) :
    exec i s = .next (s.aluNext a (aluResult i.op (s.reg a) (s.reg b))) := by
  cases i with
  | add | sub | mul | and | or | xor =>
    cases hi
    rfl
  | div =>
    cases hi
    rw [exec_div, if_neg (hdiv rfl), Instr.op, aluResult, if_neg (hdiv rfl), State.aluNext]
  | _ => cases hi

/-- DIV by 0 raises before any write (R123). -/
theorem exec_div_by_zero (a : Reg) {b : Reg} {s : State} (hb : s.reg b = 0) :
    exec (.div a b) s = .next (s.raise .divisionByZero (some 0xA3)) := by
  rw [exec_div, if_pos hb]

theorem aluAdd_toNat (x y : Byte) : (aluAdd x y).toNat = (x.toNat + y.toNat) % 256 :=
  BitVec.toNat_ofNat _ _

theorem aluMul_toNat (x y : Byte) : (aluMul x y).toNat = (x.toNat * y.toNat) % 256 :=
  BitVec.toNat_ofNat _ _

/-- The remainder of a negative difference is that of the difference with 256 borrowed (R121, R130). -/
theorem aluSub_toNat (x y : Byte) : (aluSub x y).toNat = (x.toNat + 256 - y.toNat) % 256 := by
  rw [aluSub, BitVec.toNat_ofInt]
  omega

/-- A quotient is no greater than its dividend, so a byte holds it whole (R123). -/
theorem aluDiv_toNat (x y : Byte) : (aluDiv x y).toNat = x.toNat / y.toNat := by
  rw [aluDiv, BitVec.toNat_ofNat]
  exact Nat.mod_eq_of_lt ((Nat.div_le_self _ _).trans_lt x.isLt)

/-- Settles O35: the result is the exact integer in a byte, and it is the only register written. -/
theorem addSubMulResults : Obligations.AddSubMulResults := by
  intro a b s
  refine ⟨⟨_, exec_alu (i := .add a b) rfl nofun, ?add, s.aluNext_leaves a _⟩,
    ⟨_, exec_alu (i := .sub a b) rfl nofun, ?sub, s.aluNext_leaves a _⟩,
    ⟨_, exec_alu (i := .mul a b) rfl nofun, ?mul, s.aluNext_leaves a _⟩⟩
  case add => rw [State.reg_aluNext]; exact aluAdd_toNat _ _
  case sub => rw [State.reg_aluNext]; exact aluSub_toNat _ _
  case mul => rw [State.reg_aluNext]; exact aluMul_toNat _ _

/-- Settles O36: q times the divisor is at most the dividend and q + 1 times it is more, as for every quotient. -/
theorem divResult : Obligations.DivResult := by
  intro a b s
  refine ⟨fun hb => ⟨_, exec_alu (i := .div a b) rfl fun _ => hb, ?_⟩, exec_div_by_zero a⟩
  have hpos : 0 < (s.reg b).toNat := Nat.pos_of_ne_zero fun h => hb (BitVec.eq_of_toNat_eq h)
  rw [State.reg_aluNext, Instr.op, aluResult, if_neg hb, aluDiv_toNat]
  exact ⟨Nat.div_mul_le_self _ _, (Nat.div_lt_iff_lt_mul hpos).mp (Nat.lt_succ_self _), s.aluNext_leaves a _⟩

/-- Settles O37: the results are the bitwise operations on bytes. -/
theorem andOrXorResults : Obligations.AndOrXorResults := by
  intro a b s
  refine ⟨⟨_, exec_alu (i := .and a b) rfl nofun, fun n => ?and, s.aluNext_leaves a _⟩,
    ⟨_, exec_alu (i := .or a b) rfl nofun, fun n => ?or, s.aluNext_leaves a _⟩,
    ⟨_, exec_alu (i := .xor a b) rfl nofun, fun n => ?xor, s.aluNext_leaves a _⟩⟩
  case and => rw [State.reg_aluNext]; exact BitVec.getLsbD_and
  case or => rw [State.reg_aluNext]; exact BitVec.getLsbD_or
  case xor => rw [State.reg_aluNext]; exact BitVec.getLsbD_xor

/-! ### The comparison -/

/-- CMP writes the flags of its comparison, then Advance past its three bytes (R93, R127). -/
theorem exec_cmp (a b : Reg) (s : State) :
    exec (.cmp a b) s = .next ((s.setFlags (compareBytes (s.reg a) (s.reg b))).setPc (s.pc + 3)) :=
  finish_advance (defaultOpcodeMap .cmp) s (s.setFlags (compareBytes (s.reg a) (s.reg b)))

/-- Each result of a comparison is that of its own order of the two values (R131). -/
theorem compareBytes_iff (x y : Byte) :
    (compareBytes x y = .equal ↔ x = y) ∧ (compareBytes x y = .greater ↔ x.toNat > y.toNat) ∧
      (compareBytes x y = .less ↔ x.toNat < y.toNat) := by
  unfold compareBytes
  split
  case isTrue heq =>
    have hnat : x.toNat = y.toNat := congrArg BitVec.toNat heq
    exact ⟨iff_of_true rfl heq, iff_of_false nofun (by omega), iff_of_false nofun (by omega)⟩
  case isFalse hne =>
    have hnat : x.toNat ≠ y.toNat := mt BitVec.eq_of_toNat_eq hne
    split
    case isTrue hgt => exact ⟨iff_of_false nofun hne, iff_of_true rfl hgt, iff_of_false nofun (by omega)⟩
    case isFalse hle => exact ⟨iff_of_false nofun hne, iff_of_false nofun hle, iff_of_true rfl (by omega)⟩

/-- Each flag is set exactly for its own result of a comparison (R29, R127). -/
theorem State.flags_iff_of_fl {t : State} {f : FlagState} (h : t.fl = f.toByte) :
    (t.flagE = true ↔ f = .equal) ∧ (t.flagG = true ↔ f = .greater) ∧ (t.flagL = true ↔ f = .less) := by
  rw [State.flagE, State.flagG, State.flagL, h]
  cases f <;> decide

/-- Settles O47: CMP writes to fl the flags byte of its comparison. -/
theorem compareIsTrichotomy : Obligations.CompareIsTrichotomy :=
  ⟨compareBytes_iff, fun _ _ _ _ h => State.flags_iff_of_fl (exec_fl_out h).1⟩

/-- Settles O38: each flag says its own result of the comparison, and each result its own order of the values. -/
theorem cmpResult : Obligations.CmpResult := by
  intro a b s
  obtain ⟨hequal, hgreater, hless⟩ := compareBytes_iff (s.reg a) (s.reg b)
  obtain ⟨hE, hG, hL⟩ := compareIsTrichotomy.2 a b s _ (exec_cmp a b s)
  exact ⟨_, exec_cmp a b s, hE.trans hequal, hG.trans hgreater, hL.trans hless, fun _ => FlagState.toByte_high _,
    fun _ => rfl, rfl, fun _ => rfl, rfl, rfl, rfl⟩

/-! ### One function for each operation -/

/-- What an ALU instruction ends with, DIV by 0 included: its operation's result in register A, and the rest left (R128,
R129). -/
theorem exec_alu_result {i : Instr} {a b : Reg} {s t : State} (hi : aluOperands i = some (a, b))
    (h : exec i s = .next t) :
    t.reg a = aluResult i.op (s.reg a) (s.reg b) ∧ (∀ r, r ≠ a → t.reg r = s.reg r) ∧ t.fl = s.fl ∧
      (∀ x, t.mem.read x = s.mem.read x) ∧ t.out = s.out := by
  by_cases hdiv : i.op = .div → s.reg b ≠ 0
  case pos =>
    cases (exec_alu hi hdiv).symm.trans h
    obtain ⟨hreg, -, hfl, hmem, -, -, hout⟩ := s.aluNext_leaves a (aluResult i.op (s.reg a) (s.reg b))
    exact ⟨s.reg_aluNext a _, hreg, hfl, hmem, hout⟩
  case neg =>
    obtain ⟨hop, hb⟩ : i.op = .div ∧ s.reg b = 0 := by simpa using hdiv
    cases i with
    | div =>
      cases hi
      cases (exec_div_by_zero a hb).symm.trans h
      exact ⟨(if_pos hb).symm, fun _ _ => rfl, rfl, fun _ => rfl, rfl⟩
    | _ => cases hop

/-- Settles O46: the functions are aluResult of the operation, and the flags byte of the comparison. -/
theorem aluPureAndInPlace : Obligations.AluPureAndInPlace := by
  refine ⟨fun o => ⟨aluResult o, ?alu⟩, ⟨fun x y => (compareBytes x y).toByte, ?cmp⟩⟩
  case alu =>
    rintro i a b rfl hi s t h
    exact exec_alu_result hi h
  case cmp =>
    intro a b s t h
    cases (exec_cmp a b s).symm.trans h
    exact ⟨rfl, fun _ => rfl, fun _ => rfl, rfl⟩

end Sys2Proof.Machine

/-! PROOFS of the statements of the stack (42_stack.md): the one next state of PUSH and of POP, and the one after the other. -/

namespace Sys2Proof.Machine

/-- Settles O39: the register and the address of the store are both read after the decrement (D10). -/
theorem pushResult : Obligations.PushResult := by
  intro a s
  refine ⟨_, exec_push a s, ?sp, fun r hr => ?reg, ?top, fun x hx => ?mem, rfl, rfl, rfl, rfl, rfl⟩
  case sp => rw [State.sp_setPc, State.sp_setMem, State.sp_decSp]
  case reg => rw [State.reg_setPc, State.reg_setMem, State.reg_decSp, if_neg hr]
  case top => rw [State.setPc_mem, State.setMem_mem, Memory.read_write, if_pos rfl, State.reg_decSp]
  case mem => rw [State.setPc_mem, State.setMem_mem, Memory.read_write_of_ne hx.symm]

/-- Settles O40: the increment comes after the register's write, and so adds 1 to the byte that POP R7 put in SP (D10). -/
theorem popResult : Obligations.PopResult := by
  intro a s
  refine ⟨_, exec_pop a s, fun ha => ⟨?reg, ?sp⟩, fun ha => ?spOfR7, fun r hra hr7 => ?frame, fun _ => rfl, rfl, rfl, rfl,
    rfl, rfl⟩
  case reg => rw [State.reg_setPc, State.reg_incSp, if_neg ha, State.reg_setReg, if_pos rfl]
  case sp => rw [State.sp_setPc, State.sp_incSp, State.sp_setReg, if_neg ha]
  case spOfR7 => rw [State.sp_setPc, State.sp_incSp, State.sp_setReg, if_pos ha]
  case frame => rw [State.reg_setPc, State.reg_incSp, if_neg hr7, State.reg_setReg, if_neg hra.symm]

/-- Settles O53: POP reads the byte that PUSH stored, since PUSH leaves SP at it, and SP goes down by 1 and up again. -/
theorem pushThenPop : Obligations.PushThenPop := by
  intro r q s t u hr hq hpush hpop
  obtain ⟨_, hpush', hspt, hregt, htop, -⟩ := pushResult r s
  cases hpush'.symm.trans hpush
  obtain ⟨_, hpop', hbelow, -, hregu, -⟩ := popResult q t
  cases hpop'.symm.trans hpop
  obtain ⟨hval, hspu⟩ := hbelow hq
  have hsp : u.sp = s.sp := by rw [hspu, hspt, BitVec.sub_add_cancel]
  refine ⟨?copied, hsp, fun x hx => ?frame⟩
  case copied => rw [hval, hspt, ← State.sp_decSp, htop, if_neg hr]
  case frame =>
    by_cases h7 : x = 7
    · rw [h7]
      exact hsp
    · rw [hregu x hx h7, hregt x h7]

end Sys2Proof.Machine

/-! PROOFS of the statements of control flow (43_control_flow.md): the one next state of CALL, of RET and of each jump, RET after
CALL, and the flag a jump reads after any instructions but CMP. -/

namespace Sys2Proof.Machine

/-! ### Calls and returns -/

/-- CALL up to 253 pushes its return address and jumps (R160, D8). -/
theorem exec_call_of_le (a : Reg) {s : State} (h : s.pc.toNat ≤ 253) : exec (.call a) s =
    .next ((s.decSp.setMem (s.mem.write s.decSp.sp.toNat (BitVec.ofNat 8 (s.pc.toNat + 2)))).setPc
      (zext (s.decSp.reg a))) := by
  rw [exec_call, if_neg (by omega)]

/-- Settles O41: up to 253 the return address is at most 255, so the byte at the new SP holds it whole. -/
theorem callResult : Obligations.CallResult := by
  intro a s
  refine ⟨fun hpc => ⟨_, exec_call_of_le a hpc, ?sp, fun r hr => ?reg, ?top, fun x hx => ?mem, ?pc, rfl, rfl, rfl, rfl⟩,
    fun hpc => ?raises⟩
  case sp => rw [State.sp_setPc, State.sp_setMem, State.sp_decSp]
  case reg => rw [State.reg_setPc, State.reg_setMem, State.reg_decSp, if_neg hr]
  case top =>
    rw [State.setPc_mem, State.setMem_mem, Memory.read_write, if_pos rfl, BitVec.toNat_ofNat]
    omega
  case mem => rw [State.setPc_mem, State.setMem_mem, Memory.read_write_of_ne hx.symm]
  case pc => rw [State.setPc_pc, zext_toNat, State.reg_decSp]
  case raises => rw [exec_call, if_pos hpc]

/-- Settles O42: the byte is read at SP before the increment, and a byte extended to a pc keeps its value. -/
theorem retResult : Obligations.RetResult := by
  intro s
  refine ⟨_, exec_ret s, zext_toNat _, ?sp, fun r hr => ?reg, fun _ => rfl, rfl, rfl, rfl, rfl⟩
  case sp => rw [State.sp_setPc, State.sp_incSp]
  case reg => rw [State.reg_setPc, State.reg_incSp, if_neg hr]

/-- SP and the seven other registers are the whole register file (R21, R22). -/
theorem State.regs_eq_of_sp_of_reg {s t : State} (hsp : t.sp = s.sp) (hreg : ∀ r, r ≠ 7 → t.reg r = s.reg r) :
    t.regs = s.regs := by
  refine Vector.ext fun n hn => ?_
  by_cases h7 : (⟨n, hn⟩ : Reg) = 7
  · cases h7
    exact hsp
  · exact hreg ⟨n, hn⟩ h7

/-- Settles O54: RET reads the return address that CALL stored, since CALL leaves SP at it, and SP goes down by 1 and up
again. -/
theorem callThenRet : Obligations.CallThenRet := by
  intro a s t u hpc hcall hret
  obtain ⟨_, hcall', hspt, hregt, htop, -⟩ := (callResult a s).1 hpc
  cases hcall'.symm.trans hcall
  obtain ⟨_, hret', hpcu, hspu, hregu, -⟩ := retResult t
  cases hret'.symm.trans hret
  refine ⟨?returned, State.regs_eq_of_sp_of_reg ?sp fun r hr => (hregu r hr).trans (hregt r hr)⟩
  case returned => rw [hpcu, hspt, ← State.sp_decSp, htop]
  case sp => rw [hspu, hspt, BitVec.sub_add_cancel]

/-! ### Jumps -/

/-- JMP's rule: pc stays as it wrote it (R93, R162). -/
theorem exec_jmp (a : Reg) (s : State) : exec (.jmp a) s = .next (s.setPc (zext (s.reg a))) :=
  finish_jumped (op := defaultOpcodeMap .jmp) rfl s (s.setPc (zext (s.reg a)))

/-- Settles O43: each next state is a pc write, to the register for a jump taken and past the two bytes for one not taken. -/
theorem jumpResults : Obligations.JumpResults := by
  intro a s
  refine ⟨⟨_, exec_jmp a s, zext_toNat _, rfl⟩, ⟨_, exec_jeq a s, fun hE => ?jeqTaken, fun hE => ?jeqNot, rfl⟩,
    ⟨_, exec_jne a s, fun hE => ?jneTaken, fun hE => ?jneNot, rfl⟩⟩
  case jeqTaken => rw [State.setPc_pc, State.flagE, if_pos hE, zext_toNat]
  case jeqNot => rw [State.setPc_pc, State.flagE, if_neg (ne_true_of_eq_false hE)]
  case jneTaken => rw [State.setPc_pc, State.flagE, if_neg (ne_true_of_eq_false hE), zext_toNat]
  case jneNot => rw [State.setPc_pc, State.flagE, if_pos hE]

/-- Instructions with no CMP among them leave the flags (R30). -/
theorem Executes.fl_of_not_cmp {is : List Instr} {s t : State} (h : Executes is s t)
    (hno : ∀ i ∈ is, ∀ x y, i ≠ .cmp x y) : t.fl = s.fl := by
  induction is generalizing s with
  | nil => exact congrArg State.fl (Eq.symm h)
  | cons i is ih =>
    obtain ⟨u, hi, hrest⟩ := h
    obtain ⟨hnoi, hnois⟩ := List.forall_mem_cons.mp hno
    exact (ih hrest hnois).trans (exec_fl_of_not_cmp hi hnoi)

/-- Settles O55: E is still what the CMP made it, set iff its operands were equal. -/
theorem jumpsTestMostRecentCmp : Obligations.JumpsTestMostRecentCmp := by
  intro a b r between s t u hno hcmp hbetween
  obtain ⟨_, hcmp', hEt, -⟩ := cmpResult a b s
  cases hcmp'.symm.trans hcmp
  have hfl : u.fl = t.fl := hbetween.fl_of_not_cmp hno
  have hE : u.flagE = true ↔ s.reg a = s.reg b := by
    rw [← hEt, State.flagE, hfl, State.flagE]
  refine ⟨?jeq, ?jne⟩
  case jeq => simp only [exec_jeq, hE, State.setPc]
  case jne => simp only [exec_jne, hE, State.setPc]

end Sys2Proof.Machine

/-! PROOFS of the statements of HLT (44_halt.md): its one next state, from which no further step moves. -/

namespace Sys2Proof.Machine

/-- HLT halts with its record, then Advance past its one byte (R95, R180). -/
theorem exec_hlt (s : State) :
    exec .hlt s = .next ((s.haltWith ⟨.hlt, s.pc, 0x01, true, 0, false⟩).setPc (s.pc + 1)) :=
  finish_advance (defaultOpcodeMap .hlt) s (s.haltWith ⟨.hlt, s.pc, 0x01, true, 0, false⟩)

/-- Settles O44: the next state is a halt and a pc write, and a core that is Halted takes no further step (log 1). -/
theorem hltResult : Obligations.HltResult := by
  intro s
  refine ⟨_, exec_hlt s, rfl, rfl, rfl, fun _ => rfl, rfl, fun _ => rfl, rfl, ?noFurtherStep⟩
  case noFurtherStep => exact step_of_not_running nofun

end Sys2Proof.Machine

/-! PROOFS of the statements of exceptions and ports (60_exceptions.md): which condition ends a step before the execute phase, the
halts of the execute phase, the entry of a fatal condition, and what the host's ports do and show. -/

namespace Sys2Proof

/-! ### The register check -/

/-- A register position is one of the format's operands (R75). -/
theorem Format.le_operandCount_of_mem {f : Format} {i : Nat} (h : i ∈ f.registerPositions) : i ≤ f.operandCount := by
  revert i
  cases f <;> decide

/-- A first operand byte above 7 is the first bad one, where it is a register (R92). -/
theorem firstBadRegister_first {f : Format} {a : Byte} (hpos : 1 ∈ f.registerPositions) (ha : 7 < a.toNat)
    (more : List Byte) : firstBadRegister f (a :: more) = some (1, a) := by
  cases f with
  | f0 => simp [Format.registerPositions] at hpos
  | f1r | f2rr | f2ri => simp [firstBadRegister, Format.registerPositions, ha]

/-- A second operand byte above 7 is the first bad one, where it is a register and the one before it passes (R92). -/
theorem firstBadRegister_second {f : Format} {a b : Byte} (ha : 1 ∈ f.registerPositions → a.toNat ≤ 7)
    (hpos : 2 ∈ f.registerPositions) (hb : 7 < b.toNat) (more : List Byte) :
    firstBadRegister f (a :: b :: more) = some (2, b) := by
  cases f with
  | f2rr =>
    have ha : a.toNat ≤ 7 := ha (.head _)
    simp [firstBadRegister, Format.registerPositions, ha, hb]
  | f0 | f1r | f2ri => simp [Format.registerPositions] at hpos

end Sys2Proof

namespace Sys2Proof.Machine

/-! ### What ends a step before the execute phase -/

section BeforeExecute

variable {m : OpcodeMap} (hw : m.wellFormed = true) {s : State} (hr : s.run = .running)
include hw hr

theorem stepWith_of_fetch_out (hpc : 255 < s.pc.toNat) :
    stepWith ⟨m, false⟩ s = .next (s.raise (.outOfBoundsAccess s.pc) none) := by
  have hd : decodeWith m s.fetchBytes = .error .noOpcode := by rw [State.fetchBytes_of_gt hpc, decodeWith]
  exact stepWith_of_decode_error hw hr hd

theorem stepWith_of_unknown (hpc : s.pc.toNat ≤ 255) (hl : m.lookup (s.mem.read s.pc.toNat) = none) :
    stepWith ⟨m, false⟩ s =
      .next (s.raise (.unknownOpcode s.pc (s.mem.read s.pc.toNat)) (some (s.mem.read s.pc.toNat))) := by
  have hd : decodeWith m s.fetchBytes = .error (.unknownOpcode (s.mem.read s.pc.toNat)) := by
    simp only [State.fetchBytes_of_le hpc, decodeWith, hl]
  exact stepWith_of_decode_error hw hr hd

variable {o : Op} (hpc : s.pc.toNat ≤ 255) (hl : m.lookup (s.mem.read s.pc.toNat) = some o)
include hpc hl

theorem stepWith_of_operand_out (hout : 255 < s.pc.toNat + operandCount (s.mem.read s.pc.toNat)) :
    stepWith ⟨m, false⟩ s = .next (s.raise (.outOfBoundsAccess 256) (some (m o))) := by
  have hmiss : (s.mem.window (s.pc.toNat + 1) 2).length < operandCount (s.mem.read s.pc.toNat) := by
    rw [Memory.window_length]
    omega
  have hd : decodeWith m s.fetchBytes = .error (.missingOperand (s.mem.read s.pc.toNat)) := by
    simp only [State.fetchBytes_of_le hpc, decodeWith, hl, if_pos hmiss]
  rw [OpcodeMap.lookup_some hl]
  exact stepWith_of_decode_error hw hr hd

theorem stepWith_of_bad_register (hin : s.pc.toNat + operandCount (s.mem.read s.pc.toNat) ≤ 255) {i : Nat} {b : Byte}
    (hbad : firstBadRegister o.format (s.mem.window (s.pc.toNat + 1) (operandCount (s.mem.read s.pc.toNat))) = some (i, b)) :
    stepWith ⟨m, false⟩ s = .next (s.raise (.invalidRegister (s.pc + BitVec.ofNat 9 i) b) (some (m o))) := by
  have hd := (decodeWith_fetchBytes hw hpc hl hin).1 i b hbad
  rw [stepWith_of_decode_error hw hr hd, State.undecodable, State.fetchBytes_of_le hpc, List.head?_cons,
    OpcodeMap.lookup_some hl]

end BeforeExecute

/-- Settles O21: each clause is one error of the decoder, and the step fails as the decoder does. -/
theorem fatalOrderBeforeExecute : Obligations.FatalOrderBeforeExecute := by
  refine ⟨⟨defaultOpcodeMap_wellFormed, stepIsStepWithDefaults.2⟩, fun m hw s hr => ⟨stepWith_of_fetch_out hw hr, ?_⟩⟩
  rintro op hpc rfl
  refine ⟨stepWith_of_unknown hw hr hpc, fun o hl => ⟨stepWith_of_operand_out hw hr hpc hl, ?registers⟩⟩
  rintro hin first second rfl rfl
  have hcount := OpcodeMap.operandCount_of_lookup hw hl
  refine ⟨fun hpos hfirst => ?_, fun hfirst hpos hsecond => ?_⟩
  · obtain ⟨n, hn⟩ := Nat.exists_eq_add_of_le' (Format.le_operandCount_of_mem hpos)
    refine stepWith_of_bad_register hw hr hpc hl hin (i := 1) ?_
    rw [hcount, hn, Memory.window_succ, if_pos (by omega)]
    exact firstBadRegister_first hpos hfirst _
  · obtain ⟨n, hn⟩ := Nat.exists_eq_add_of_le' (Format.le_operandCount_of_mem hpos)
    refine stepWith_of_bad_register hw hr hpc hl hin (i := 2) ?_
    rw [hcount, hn, Memory.window_succ, if_pos (by omega), Memory.window_succ, if_pos (by omega)]
    exact firstBadRegister_second hfirst hpos hsecond _

/-! ### The halts of the execute phase -/

/-- The ways an instruction halts a Running core: HLT, which moves pc past itself, and the entry of DIV's or CALL's fatal
condition (R95, R180, R206 item 5). -/
inductive ExecHalt (s : State) : Instr → State → Prop where
  | hlt : ExecHalt s .hlt ((s.haltWith ⟨.hlt, s.pc, defaultOpcodeMap .hlt, true, 0, false⟩).setPc (s.pc + 1))
  | dividesByZero {a b : Reg} : s.reg b = 0 →
      ExecHalt s (.div a b) (s.raise .divisionByZero (some (defaultOpcodeMap .div)))
  | callsOut {a : Reg} : 253 < s.pc.toNat →
      ExecHalt s (.call a)
        (s.raise (.outOfBoundsAccess (BitVec.ofNat 9 (s.pc.toNat + 2))) (some (defaultOpcodeMap .call)))

/-- Of the answers of the execute phase, those that carry on leave the core Running (R94). -/
theorem exec_halt {i : Instr} {s t : State} (hr : s.run = .running) (h : exec i s = .next t) (ht : t.run = .halted) :
    ExecHalt s i t := by
  have ha := phase_answer (defaultOpcodeMap i.op) i s
  rw [exec_eq_execOp, execOp] at h
  generalize phase (defaultOpcodeMap i.op) i s = ph at h ha
  cases ha with
  | halts =>
    cases h
    exact .hlt
  | dividesByZero hb =>
    cases h
    exact .dividesByZero hb
  | callsOut hpc =>
    cases h
    exact .callsOut hpc
  | advances hu =>
    obtain rfl : _ = t := by simpa using h
    simp [hu.run, hr] at ht
  | jumps hu hc =>
    rw [finish_jumped ((OpcodeMap.control_of_wellFormed defaultOpcodeMap_wellFormed i.op).trans hc)] at h
    cases h
    simp [hu.run, hr] at ht

/-- Settles O24: the three ways an instruction halts are the statement's. -/
theorem executeHaltsOnlyThus : Obligations.ExecuteHaltsOnlyThus := by
  intro i s t hr h ht
  cases exec_halt hr h ht with
  | hlt => exact .inl rfl
  | dividesByZero hb => exact .inr (.inl ⟨_, _, rfl, hb⟩)
  | callsOut hpc => exact .inr (.inr ⟨_, rfl, hpc⟩)

/-! ### The entry of a fatal condition -/

/-- No fatal condition records the cause of a core that has not halted (R200). -/
theorem Fatal.cause_ne_none (f : Fatal) : f.cause ≠ .none := by
  cases f <;> nofun

/-- A fatal condition changes run and the halt record alone, and records pc and a cause (R207). -/
theorem State.raise_precise (s : State) (f : Fatal) (op : Option Byte) :
    s.raise f op = { s with run := .halted, haltRec := (s.raise f op).haltRec } ∧ (s.raise f op).haltRec.fpc = s.pc ∧
      (s.raise f op).haltRec.cause ≠ .none :=
  ⟨rfl, rfl, f.cause_ne_none⟩

/-- Settles O23: a step that halts takes a fatal condition in the state it began in, or runs HLT. -/
theorem fatalStepsArePrecise : Obligations.FatalStepsArePrecise := by
  intro s t hr h ht hcause
  cases step_form h with
  | idle hidle => exact absurd hr hidle
  | faults f op => exact s.raise_precise f op
  | executes i rest _ _ hx =>
    cases exec_halt hr hx ht with
    | hlt => exact absurd rfl hcause
    | dividesByZero | callsOut => exact s.raise_precise _ _

/-- Settles O22: the frame and FPC for every condition, FOPC by whether the opcode was fetched, the rest by the condition. -/
theorem fatalEntry : Obligations.FatalEntry := by
  intro s f op
  refine ⟨rfl, rfl, rfl, rfl, rfl, rfl, rfl, ?fetched, ?unfetched, ?named⟩
  case fetched =>
    rintro b rfl
    exact ⟨rfl, rfl⟩
  case unfetched =>
    rintro rfl
    exact ⟨rfl, rfl⟩
  case named => cases f <;> exact ⟨rfl, rfl, rfl⟩

/-! ### The halts of the execute phase under every map -/

theorem execOp_div_by_zero (op : Byte) (a : Reg) {b : Reg} {s : State} (hb : s.reg b = 0) :
    execOp op (.div a b) s = .next (s.raise .divisionByZero (some op)) := by
  rw [execOp, phase, divPhase, if_pos hb, finish_raised]

theorem execOp_call_of_gt (op : Byte) (a : Reg) {s : State} (hpc : 253 < s.pc.toNat) :
    execOp op (.call a) s = .next (s.raise (.outOfBoundsAccess (BitVec.ofNat 9 (s.pc.toNat + 2))) (some op)) := by
  rw [execOp, phase, callPhase_of_gt a hpc, finish_raised]

/-- HLT under a byte that counts no operand: the halt with that byte in its record, then Advance past it (R95, R180). -/
theorem execOp_hlt {op : Byte} (hlen : instrLength op = 1) (s : State) :
    execOp op .hlt s = .next ((s.haltWith ⟨.hlt, s.pc, op, true, 0, false⟩).setPc (s.pc + 1)) := by
  rw [execOp, phase, hltPhase, finish_advance, hlen]
  rfl

/-- Settles O57: the step runs what decodes at pc under the map's byte; a CALL above 253 with its operand in memory is at 254. -/
theorem haltsUnderEveryMap : Obligations.HaltsUnderEveryMap := by
  intro p s rest hw hr heager
  have hstep (i : Instr) (hd : decodeWith p.opcodeMap s.fetchBytes = .ok (i, rest)) :
      stepWith p s = execOp (p.opcodeMap i.op) i s :=
    stepWithRunsDecodedInstruction p s i rest hr heager hd
  refine ⟨fun a b hd hb => ?div, fun a hd hpc => ?call, fun hd => ?hlt⟩
  case div => exact (hstep _ hd).trans (execOp_div_by_zero _ a hb)
  case call =>
    obtain ⟨hl, hin, -⟩ := fetchBytes_decode hd
    have hcount : operandCount (s.mem.read s.pc.toNat) = 1 := OpcodeMap.operandCount_of_lookup hw hl
    have hnext : s.pc.toNat + 2 = 256 := by omega
    rw [hstep _ hd, execOp_call_of_gt _ a hpc, hnext]
    rfl
  case hlt => exact (hstep _ hd).trans (execOp_hlt (OpcodeMap.instrLength_of_wellFormed hw .hlt) s)

/-! ### The host's actions -/

/-- Outside Ready the core takes no host action but reset (R220 to R222, D19; log 9). -/
theorem State.host_of_not_ready {s : State} (hr : s.run ≠ .ready) {act : HostAction} (hact : act ≠ .reset) :
    s.host act = s := by
  cases hrun : s.run with
  | ready => exact absurd hrun hr
  | running | halted =>
    cases act with
    | reset => exact absurd rfl hact
    | loadWr | start => simp only [State.host, State.loadWr, State.start, hrun]

theorem State.host_start_of_ready {s : State} (hr : s.run = .ready) : s.host .start = { s with run := .running } := by
  simp only [State.host, State.start, hr]

theorem State.host_loadWr_of_ready {s : State} (hr : s.run = .ready) (addr data : Byte) :
    s.host (.loadWr addr data) = s.setMem (s.mem.write addr.toNat data) := by
  simp only [State.host, State.loadWr, hr]

/-- Settles O9: reset looks at nothing, start and load_wr at the run state. -/
theorem hostActionEffects : Obligations.HostActionEffects :=
  ⟨fun _ => rfl, fun _ => State.host_start_of_ready, fun _ _ hr hact => State.host_of_not_ready hr hact⟩

/-- Settles O10: the state is a memory write alone, read back at its cell and at the others. -/
theorem loadWriteInReady : Obligations.LoadWriteInReady := by
  intro s addr data hr
  rw [State.host_loadWr_of_ready hr]
  refine ⟨?_, fun a ha => Memory.read_write_of_ne ha.symm _ _, rfl⟩
  rw [State.setMem_mem, Memory.read_write, if_pos rfl]

/-- The reset state with any canonical memory, in Ready or started, meets the invariant (R233, R234). -/
theorem inv_of_loaded {mem : Memory} (hmem : mem.wf = true) {run : RunState} (hrun : run ≠ .halted) :
    ({ State.reset with mem, run } : State).Inv where
  mem := hmem
  pc := Nat.zero_le _
  flags := .inl rfl
  haltRec := ⟨hrun, rfl⟩
  fopc := rfl
  fresh := by
    rintro rfl
    rfl

/-- Settles O29: in Ready only memory differs from reset, and outside Ready only reset acts. -/
theorem hostKeepsInvariant : Obligations.HostKeepsInvariant := by
  intro s act hi
  by_cases hact : act = .reset
  · subst hact
    exact resetMeetsInvariant
  by_cases hr : s.run = .ready
  · have hs := hi.fresh hr
    cases act with
    | reset => exact absurd rfl hact
    | loadWr addr data =>
      rw [State.host_loadWr_of_ready hr, hs]
      exact inv_of_loaded (Memory.wf_write hi.mem addr.isLt data) nofun
    | start =>
      rw [State.host_start_of_ready hr, hs]
      exact inv_of_loaded hi.mem nofun
  · rw [State.host_of_not_ready hr hact]
    exact hi

/-! ### What the ports show -/

theorem Memory.traceByte_of_le {a : Nat} (h : a ≤ 255) (m : Memory) : m.traceByte a = some (m.read a) :=
  if_pos (Nat.lt_succ_of_le h)

theorem Memory.traceByte_of_gt {a : Nat} (h : 255 < a) (m : Memory) : m.traceByte a = none :=
  if_neg (Nat.not_lt.mpr h)

theorem State.readout_of_running {s : State} (h : s.run = .running) : s.readout = none := by
  rw [State.readout, h]

theorem State.readout_of_not_running {s : State} (h : s.run ≠ .running) : s.readout = some s := by
  rw [State.readout]
  cases hr : s.run with
  | running => exact absurd hr h
  | ready | halted => rfl

/-- Settles O14: the trace byte by byte, by whether its address is in memory, and the CAUSE code cause by cause. -/
theorem portValues : Obligations.PortValues := by
  refine ⟨fun s => ?trace, fun s => ⟨State.readout_of_running, State.readout_of_not_running⟩, fun s => ?status⟩
  case trace =>
    have shown {a : Nat} (h : a ≤ 255) := Memory.traceByte_of_le h s.mem
    have absent {a : Nat} (h : 255 < a) := Memory.traceByte_of_gt h s.mem
    exact ⟨rfl, rfl, fun _ => ⟨shown (by omega), shown (by omega), shown (by omega)⟩, fun _ => absent (by omega),
      fun _ => absent (by omega), fun h => shown h, fun _ => shown (by omega), fun h => absent h⟩
  case status =>
    refine ⟨rfl, ?code, rfl, rfl, rfl, rfl, rfl⟩
    rw [State.status]
    cases s.haltRec.cause <;> rfl

end Sys2Proof.Machine

/-! PROOFS of the statements of reset and hazards (70_reset_and_hazards.md): the loader as one run of stores, the bytes of an
image's lines, the state the boot order ends in, and the invariant along every run from there. -/

namespace Sys2Proof.Machine

/-! ### A run of stored bytes -/

theorem Memory.writeMany_cons {a : Nat} (h : a < 256) (m : Memory) (b : Byte) (bs : List Byte) :
    m.writeMany a (b :: bs) = (m.write a b).writeMany (a + 1) bs :=
  if_pos h

/-- What each cell reads after bytes are stored from an address upward, all of them inside memory (R236). -/
theorem Memory.read_writeMany {a : Nat} {bs : List Byte} (h : a + bs.length ≤ 256) (m : Memory) (x : Nat) :
    (m.writeMany a bs).read x = if x < a then m.read x else bs[x - a]?.getD (m.read x) := by
  induction bs generalizing m a with
  | nil => simp [Memory.writeMany]
  | cons b bs ih =>
    rw [List.length_cons] at h
    rw [Memory.writeMany_cons (by omega), ih (by omega)]
    obtain hlt | rfl | hgt := Nat.lt_trichotomy x a
    · rw [if_pos (by omega), if_pos hlt, Memory.read_write_of_ne (by omega)]
    · simp
    · rw [if_neg (by omega), if_neg (by omega), Memory.read_write_of_ne (by omega), show x - a = x - (a + 1) + 1 by omega,
        List.getElem?_cons_succ]

/-- In a memory of zeros, bytes stored from address 0 upward are read back there (R236). -/
theorem Memory.read_image {bs : List Byte} (h : bs.length ≤ 256) {k : Nat} {b : Byte} (hk : bs[k]? = some b) :
    (Memory.writeMany [] 0 bs).read k = b := by
  rw [Memory.read_writeMany (by omega), if_neg (Nat.not_lt_zero k), Nat.sub_zero, hk, Option.getD_some]

/-- Every cell above them still reads 0 (R39). -/
theorem Memory.read_above_image {bs : List Byte} (h : bs.length ≤ 256) {a : Nat} (ha : bs.length ≤ a) :
    (Memory.writeMany [] 0 bs).read a = 0 := by
  rw [Memory.read_writeMany (by omega), if_neg (Nat.not_lt_zero a), Nat.sub_zero, List.getElem?_eq_none ha,
    Option.getD_none, Memory.read_nil]

/-! ### The loader -/

/-- The loader acts through the load_wr port, one action for each byte (R220, R236). -/
theorem State.loadFrom_cons (s : State) (a : Nat) (b : Byte) (bs : List Byte) :
    s.loadFrom a (b :: bs) = (s.host (.loadWr (BitVec.ofNat 8 a) b)).loadFrom (a + 1) bs := rfl

/-- In Ready the loader's writes are one run of stores, and change memory alone (R236). -/
theorem State.loadFrom_of_ready {s : State} (hr : s.run = .ready) {a : Nat} {bs : List Byte} (h : a + bs.length ≤ 256) :
    s.loadFrom a bs = s.setMem (s.mem.writeMany a bs) := by
  induction bs generalizing s a with
  | nil => rfl
  | cons b bs ih =>
    rw [List.length_cons] at h
    have haddr : (BitVec.ofNat 8 a).toNat = a := Nat.mod_eq_of_lt (by omega)
    rw [State.loadFrom_cons, State.host_loadWr_of_ready hr, haddr, Memory.writeMany_cons (by omega),
      ih (s := s.setMem (s.mem.write a b)) hr (by omega)]
    rfl

/-- Outside Ready every one of the loader's writes is without effect (R222). -/
theorem State.loadFrom_of_not_ready {s : State} (hr : s.run ≠ .ready) (a : Nat) (bs : List Byte) : s.loadFrom a bs = s := by
  induction bs generalizing a with
  | nil => rfl
  | cons b bs ih => rw [State.loadFrom_cons, State.host_of_not_ready hr (act := .loadWr _ _) nofun, ih]

theorem State.loadImage_of_le {image : List Byte} (h : image.length ≤ 256) (s : State) :
    s.loadImage image = some (s.loadFrom 0 image) :=
  if_pos h

theorem State.loadImage_of_gt {image : List Byte} (h : 256 < image.length) (s : State) : s.loadImage image = none :=
  if_neg (Nat.not_le.mpr h)

/-- Loading an image that fits into the reset state stores it from address 0 (R234, R236). -/
theorem loadImage_reset {image : List Byte} (h : image.length ≤ 256) :
    State.reset.loadImage image = some (State.reset.setMem (Memory.writeMany [] 0 image)) := by
  rw [State.loadImage_of_le h, State.loadFrom_of_ready rfl (by omega)]
  rfl

/-- Settles O11: the loaded memory byte by byte, no write outside Ready, and the length looked at before any write. -/
theorem loaderContract : Obligations.LoaderContract := by
  refine ⟨fun image h => ⟨_, loadImage_reset h, fun _ _ => Memory.read_image h, fun _ => Memory.read_above_image h, rfl⟩,
    fun s image hr t ht => ?outside, fun s image h => State.loadImage_of_gt h s⟩
  case outside =>
    by_cases h : image.length ≤ 256
    · rw [State.loadImage_of_le h, State.loadFrom_of_not_ready hr] at ht
      exact (Option.some.inj ht).symm
    · rw [State.loadImage_of_gt (by omega)] at ht
      cases ht

/-! ### The lines of an image -/

theorem imageBytes_literal_of_gt {n : Nat} (h : 255 < n) (ks : List ImageLine) : imageBytes (.literal n :: ks) = none :=
  if_neg (Nat.not_le.mpr h)

/-- Lines are read one after the other: the bytes of the first lines, then those of the rest, if both are valid (R237). -/
theorem imageBytes_append (ls ks : List ImageLine) :
    imageBytes (ls ++ ks) = (imageBytes ls).bind fun bs => (imageBytes ks).map (bs ++ ·) := by
  induction ls with
  | nil => simp [imageBytes]
  | cons l ls ih =>
    cases l with
    | blank | malformed => exact ih
    | literal n =>
      by_cases h : n ≤ 255
      · simp [imageBytes, h, ih, Option.map_bind, Option.bind_map, Function.comp_def]
      · simp [imageBytes, h]

/-! ### The boot order -/

/-- A valid image boots into the reset state with the image in memory, started (R231, R234). -/
theorem boot_of_le {ls : List ImageLine} {bytes : List Byte} (hb : imageBytes ls = some bytes) (h : bytes.length ≤ 256) :
    boot ls = some { State.reset with mem := Memory.writeMany [] 0 bytes, run := .running } := by
  rw [boot, hb, Option.bind_some, loadImage_reset h, Option.map_some]
  rfl

theorem boot_of_gt {ls : List ImageLine} {bytes : List Byte} (hb : imageBytes ls = some bytes) (h : 256 < bytes.length) :
    boot ls = none := by
  rw [boot, hb, Option.bind_some, State.loadImage_of_gt h, Option.map_none]

theorem boot_of_none {ls : List ImageLine} (hb : imageBytes ls = none) : boot ls = none := by
  rw [boot, hb, Option.bind_none, Option.map_none]

/-- Settles O12: the bad literal spoils whatever lines stand around it, and a skipped line has no bytes. -/
theorem invalidImageNotStarted : Obligations.InvalidImageNotStarted := by
  refine ⟨fun ls ks n hn => boot_of_none ?literal, fun ls bytes => boot_of_gt, fun ls ks => ⟨?blank, ?malformed⟩⟩
  case literal => simp only [imageBytes_append, imageBytes_literal_of_gt hn, Option.map_none, Option.bind_fun_none]
  case blank | malformed =>
    rw [imageBytes_append, imageBytes_append]
    rfl

/-- Settles O13: the booted state, and its memory byte by byte. -/
theorem bootRunsImageFromZero : Obligations.BootRunsImageFromZero :=
  fun _ _ hb h =>
    ⟨_, boot_of_le hb h, rfl, rfl, fun _ _ => Memory.read_image h, fun _ => Memory.read_above_image h, rfl⟩

/-! ### Runs from a booted image -/

/-- A booted core meets the invariant: only a valid image boots (R234, R237). -/
theorem boot_inv {ls : List ImageLine} {s : State} (h : boot ls = some s) : s.Inv := by
  cases hb : imageBytes ls with
  | none =>
    rw [boot_of_none hb] at h
    cases h
  | some bytes =>
    by_cases hlen : bytes.length ≤ 256
    · obtain rfl : _ = s := Option.some.inj ((boot_of_le hb hlen).symm.trans h)
      exact inv_of_loaded (Memory.wf_writeMany rfl 0 bytes) nofun
    · rw [boot_of_gt hb (by omega)] at h
      cases h

/-- Every run answers a next state and keeps the invariant. -/
theorem run_keeps_inv {s : State} (hi : s.Inv) (k : Nat) : ∃ t, Sys2Proof.core.run k s = .next t ∧ t.Inv := by
  induction k generalizing s with
  | zero => exact ⟨s, rfl, hi⟩
  | succ k ih =>
    obtain ⟨u, hu⟩ := stepAlwaysAnswers s
    have hstep : Sys2Proof.core.step s = .next u := hu
    simpa only [Host.Core.run, hstep] using ih (stepKeepsInvariant s u hi hu)

/-- Settles O30: the booted state meets the invariant, and its run keeps it. -/
theorem bootedRunsMeetInvariant : Obligations.BootedRunsMeetInvariant :=
  fun _ _ k h => run_keeps_inv (boot_inv h) k

end Sys2Proof.Machine
